-- ==== Sys2Proof/Word.lean ====
section
/-! DEFINITION. The word types of PML-CORE: the captured word, the byte of a digit slot, one bit. -/

namespace Sys2Proof

/-- A captured word: `WORD_BITS = 17` bits, bit 16 the first sampled (R9, R21, R60). -/
abbrev Word := BitVec 17

/-- A DATA field or a digit-slot byte (R43, R60). -/
abbrev Byte := BitVec 8

/-- One bit: a data-line level, a flag, a status (R74, R82). -/
abbrev Bit := BitVec 1

end Sys2Proof
end

