-- ==== Sys2Proof/Syntax.lean ====
section
/-! DEFINITION. The syntax of what drives PML-CORE: the rows of the opcode table, the words of a stimulus, the
lines of a stimulus program, and what a configuration of the segment tables is. -/

namespace Sys2Proof

/-- The level of one bus line; chip-select high is deasserted (R27, R80). -/
inductive LineLevel where
  | low
  | high
  deriving DecidableEq, Repr, Inhabited

/-- One constructor per row of spec/opcode_table.json: the nine operations and four reserved rows of R70, and the
eight bus-word rows of R63, the latter with the ADDR and DATA fields of R60. -/
inductive Instr where
  /-- CS_FALL, code 0000 (R81). -/
  | csf
  /-- CS_RISE, code 0001 (R83). -/
  | csr
  /-- SCLK_RISE(d), code 001d (R82). -/
  | clk (d : Bit)
  /-- RESET, code 0100 (R151). -/
  | rst
  /-- GET_VOLTAGE, code 1000 (R113). -/
  | getv
  /-- GET_CURRENT, code 1001 (R114). -/
  | geti
  /-- GET_POWER, code 1010 (R116). -/
  | getp
  /-- GET_ENERGY, code 1011 (R117). -/
  | gete
  /-- DUMP, code 1100 (R118). -/
  | dump
  /-- Reserved code 0101 (R71). -/
  | reservedOp0101
  /-- Reserved codes 0110 and 0111 (R71). -/
  | reservedOp011x (x : Bit)
  /-- Reserved code 1101 (R71). -/
  | reservedOp1101
  /-- Reserved codes 1110 and 1111 (R71). -/
  | reservedOp111x (x : Bit)
  /-- Bus word with CMD = 5, "write memory, sequential" (R63). -/
  | writeMemory (addr : BitVec 6) (data : Byte)
  /-- Bus word with CMD = 0 (R63, R96). -/
  | ignoredCmd0 (addr : BitVec 6) (data : Byte)
  /-- Bus word with CMD = 1 (R63, R96). -/
  | ignoredCmd1 (addr : BitVec 6) (data : Byte)
  /-- Bus word with CMD = 2 (R63, R96). -/
  | ignoredCmd2 (addr : BitVec 6) (data : Byte)
  /-- Bus word with CMD = 3 (R63, R96). -/
  | ignoredCmd3 (addr : BitVec 6) (data : Byte)
  /-- Bus word with CMD = 4 (R63, R96). -/
  | ignoredCmd4 (addr : BitVec 6) (data : Byte)
  /-- Bus word with CMD = 6 (R63, R96). -/
  | ignoredCmd6 (addr : BitVec 6) (data : Byte)
  /-- Bus word with CMD = 7 (R63, R96). -/
  | ignoredCmd7 (addr : BitVec 6) (data : Byte)
  deriving DecidableEq, Repr

/-- The three agents whose operations PML-CORE responds to (R141). -/
inductive Agent where
  | bus
  | host
  | resetSource
  deriving DecidableEq, Repr

/-- The agent that produces an operation (R141); a reserved code is nobody's operation (R71). -/
def Instr.agent : Instr → Option Agent
  | .csf | .csr | .clk _ => some .bus
  | .rst => some .resetSource
  | .getv | .geti | .getp | .gete | .dump => some .host
  | .reservedOp0101 | .reservedOp011x _ | .reservedOp1101 | .reservedOp111x _ => none
  | .writeMemory _ _ | .ignoredCmd0 _ _ | .ignoredCmd1 _ _ | .ignoredCmd2 _ _ | .ignoredCmd3 _ _
  | .ignoredCmd4 _ _ | .ignoredCmd6 _ _ | .ignoredCmd7 _ _ => some .bus

/-- One encoded item of a stimulus: a 4-bit operation code (R70) or a whole 17-bit bus word (R60). -/
inductive StimulusWord where
  | op4 (code : BitVec 4)
  | busWord (w : Word)
  deriving DecidableEq, Repr

/-- One line of a stimulus program: an operation (R75) or a pseudo-operation (R76), with the numbers as written. -/
inductive SourceLine where
  | op (i : Instr)
  | bits (bs : List Nat)
  | word (w : Nat)
  | pkt (c a d : Nat)
  | xact (bs : List Nat)
  | seq (ds : List Nat)
  | idle
  deriving DecidableEq, Repr

/-- The two segment tables, digit 0..9 to a pattern (R25, R34, R68); the PE entries are 7 bits wide by type. -/
structure SegTables where
  vc : Vector Byte 10
  pe : Vector (BitVec 7) 10
  deriving DecidableEq, Repr

end Sys2Proof
end

