-- ==== Sys2Proof/WellFormed.lean ====
section
/-! DEFINITION. Which terms of the syntax are well formed: operations (R69, R71), lines of a stimulus program
(R75, R76), and configurations of the segment tables (R68). -/

namespace Sys2Proof

/-- A well-formed instruction is one that spells something: any row but the reserved ones (R71). -/
def Instr.wellFormed : Instr → Bool
  | .reservedOp0101 | .reservedOp011x _ | .reservedOp1101 | .reservedOp111x _ => false
  | .csf | .csr | .clk _ | .rst | .getv | .geti | .getp | .gete | .dump => true
  | .writeMemory _ _ | .ignoredCmd0 _ _ | .ignoredCmd1 _ _ | .ignoredCmd2 _ _ | .ignoredCmd3 _ _
  | .ignoredCmd4 _ _ | .ignoredCmd6 _ _ | .ignoredCmd7 _ _ => true

/-- The operations of R69: those that a stimulus program names by a mnemonic of R75. -/
def Instr.isOperation : Instr → Bool
  | .csf | .csr | .clk _ | .rst | .getv | .geti | .getp | .gete | .dump => true
  | .reservedOp0101 | .reservedOp011x _ | .reservedOp1101 | .reservedOp111x _ => false
  | .writeMemory _ _ | .ignoredCmd0 _ _ | .ignoredCmd1 _ _ | .ignoredCmd2 _ _ | .ignoredCmd3 _ _
  | .ignoredCmd4 _ _ | .ignoredCmd6 _ _ | .ignoredCmd7 _ _ => false

/-- The requirements R76 puts on the numbers of a pseudo-operation. -/
def SourceLine.wellFormed : SourceLine → Bool
  | .op i => i.isOperation
  | .bits bs => bs.all (fun b => decide (b < 2))
  | .word w => decide (w < 2 ^ 17)
  | .pkt c a d => decide (c < 8) && decide (a < 64) && decide (d < 256)
  | .xact bs => bs.all (fun b => decide (b < 2))
  | .seq ds => decide (ds.length = 16) && ds.all (fun d => decide (d < 256))
  | .idle => true

/-- R68(a): `VC_TABLE` is injective. -/
def SegTables.vcInjective (t : SegTables) : Bool := decide t.vc.toList.Nodup

/-- R68(b): `PE_TABLE` is injective (every entry is below 128 by its type). -/
def SegTables.peInjective (t : SegTables) : Bool := decide t.pe.toList.Nodup

/-- R68(c): every `VC_TABLE` entry has bits 7 and 3 clear. -/
def SegTables.vcBitsClear (t : SegTables) : Bool := t.vc.toList.all (fun e => e &&& 0x88#8 == 0#8)

/-- R68(d): the four entries read from PML §8. -/
def SegTables.vcPinned (t : SegTables) : Bool :=
  t.vc[0] == 0x05#8 && t.vc[1] == 0x75#8 && t.vc[2] == 0x53#8 && t.vc[3] == 0x17#8

/-- R68: the constraints a configuration of the segment tables must satisfy. -/
def SegTables.wellFormed (t : SegTables) : Bool :=
  t.vcInjective && t.peInjective && t.vcBitsClear && t.vcPinned

end Sys2Proof
end

