-- ==== Sys2Proof/Decode.lean ====
section
/-! DEFINITION. The encodings: fields of a captured word (R60, R61), the decoder of operation codes (R70, R71) and
bus words (R63), and after it the encoder. -/

namespace Sys2Proof

/-! ### Fields of a captured word -/

/-- `CMD(w) = w[16:14]` (R61). -/
def cmdOf (w : Word) : BitVec 3 := w.extractLsb' 14 3

/-- `ADDR(w) = w[13:8]` (R61). -/
def addrOf (w : Word) : BitVec 6 := w.extractLsb' 8 6

/-- `DATA(w) = w[7:0]` (R61). -/
def dataOf (w : Word) : Byte := w.extractLsb' 0 8

/-- The word of packet `C, A, D`: `(C << 14) | (A << 8) | D` (R60, R76). -/
def packWord (c : BitVec 3) (a : BitVec 6) (d : Byte) : Word :=
  (c.setWidth 17 <<< 14) ||| (a.setWidth 17 <<< 8) ||| d.setWidth 17

/-- The data levels of the 17 clock edges that carry a word, `W[16], W[15], ..., W[0]` (R62, R76). -/
def serialBits (w : Word) : List Bit :=
  (List.range 17).map fun n => w.extractLsb' (16 - n) 1

/-! ### Decoding -/

/-- The operation that a 4-bit code spells, the reserved rows of the table included (R70, R71;
DESIGN CHOICE, notes/assumptions/15.md). -/
def decodeOp4 (code : BitVec 4) : Instr :=
  match code.toNat with
  | 0 => .csf
  | 1 => .csr
  | 2 | 3 => .clk (code.extractLsb' 0 1)
  | 4 => .rst
  | 5 => .reservedOp0101
  | 6 | 7 => .reservedOp011x (code.extractLsb' 0 1)
  | 8 => .getv
  | 9 => .geti
  | 10 => .getp
  | 11 => .gete
  | 12 => .dump
  | 13 => .reservedOp1101
  | _ => .reservedOp111x (code.extractLsb' 0 1)

/-- The row of the table that a 17-bit bus word belongs to, by its command (R63). No word is illegal (R72). -/
def decodeBusWord (w : Word) : Instr :=
  match (cmdOf w).toNat with
  | 0 => .ignoredCmd0 (addrOf w) (dataOf w)
  | 1 => .ignoredCmd1 (addrOf w) (dataOf w)
  | 2 => .ignoredCmd2 (addrOf w) (dataOf w)
  | 3 => .ignoredCmd3 (addrOf w) (dataOf w)
  | 4 => .ignoredCmd4 (addrOf w) (dataOf w)
  | 5 => .writeMemory (addrOf w) (dataOf w)
  | 6 => .ignoredCmd6 (addrOf w) (dataOf w)
  | _ => .ignoredCmd7 (addrOf w) (dataOf w)

/-- Decoding is total: each item of a stimulus is one row of the table. -/
def decode : StimulusWord → Instr
  | .op4 code => decodeOp4 code
  | .busWord w => decodeBusWord w

/-- Why bits given from outside are no item of a stimulus. -/
inductive DecodeError where
  /-- Bits above the 4 of an operation code. Safe: nothing runs. -/
  | bitsAboveOperationCode (w : Nat)
  /-- Bits above the 17 of a bus word. Safe: nothing runs. -/
  | bitsAboveBusWord (w : Nat)
  /-- A character that is no hexadecimal digit (R75). Safe: nothing runs. -/
  | notAHexDigit (c : Char)
  deriving DecidableEq, Repr

/-- The item that `nbits` given bits make: fewer than 17 bits are an operation code, 17 or more a bus word
(DESIGN CHOICE, notes/assumptions/12.md). -/
def stimulusOfBits (nbits w : Nat) : Except DecodeError StimulusWord :=
  if nbits < 17 then
    if w < 2 ^ 4 then .ok (.op4 (BitVec.ofNat 4 w)) else .error (.bitsAboveOperationCode w)
  else
    if w < 2 ^ 17 then .ok (.busWord (BitVec.ofNat 17 w)) else .error (.bitsAboveBusWord w)

/-- The instruction the decoder reads from a word of the opcode table. -/
def decodeTableWord (nbits w : Nat) : Option Instr :=
  match stimulusOfBits nbits w with
  | .ok x => some (decode x)
  | .error _ => none

/-- One character of a program's hexadecimal encoding (R75; either case: DESIGN CHOICE,
notes/assumptions/13.md). -/
def hexDigit (c : Char) : Except DecodeError (BitVec 4) :=
  if '0' ≤ c ∧ c ≤ '9' then .ok (BitVec.ofNat 4 (c.toNat - '0'.toNat))
  else if 'A' ≤ c ∧ c ≤ 'F' then .ok (BitVec.ofNat 4 (c.toNat - 'A'.toNat + 10))
  else if 'a' ≤ c ∧ c ≤ 'f' then .ok (BitVec.ofNat 4 (c.toNat - 'a'.toNat + 10))
  else .error (.notAHexDigit c)

/-- A program's encoding read back: one operation code per hexadecimal digit (R75). -/
def programOfHex : List Char → Except DecodeError (List StimulusWord)
  | [] => .ok []
  | c :: cs =>
    match hexDigit c, programOfHex cs with
    | .ok d, .ok ws => .ok (.op4 d :: ws)
    | .error e, _ => .error e
    | .ok _, .error e => .error e

/-! ### Encoding -/

/-- The stimulus item of an instruction, from the same tables (R60, R70). -/
def encode : Instr → StimulusWord
  | .csf => .op4 0b0000#4
  | .csr => .op4 0b0001#4
  | .clk d => .op4 (0b0010#4 ||| d.setWidth 4)
  | .rst => .op4 0b0100#4
  | .getv => .op4 0b1000#4
  | .geti => .op4 0b1001#4
  | .getp => .op4 0b1010#4
  | .gete => .op4 0b1011#4
  | .dump => .op4 0b1100#4
  | .reservedOp0101 => .op4 0b0101#4
  | .reservedOp011x x => .op4 (0b0110#4 ||| x.setWidth 4)
  | .reservedOp1101 => .op4 0b1101#4
  | .reservedOp111x x => .op4 (0b1110#4 ||| x.setWidth 4)
  | .writeMemory a d => .busWord (packWord 5 a d)
  | .ignoredCmd0 a d => .busWord (packWord 0 a d)
  | .ignoredCmd1 a d => .busWord (packWord 1 a d)
  | .ignoredCmd2 a d => .busWord (packWord 2 a d)
  | .ignoredCmd3 a d => .busWord (packWord 3 a d)
  | .ignoredCmd4 a d => .busWord (packWord 4 a d)
  | .ignoredCmd6 a d => .busWord (packWord 6 a d)
  | .ignoredCmd7 a d => .busWord (packWord 7 a d)

/-- The hexadecimal digit of an operation code, in capitals as R75's examples have it. -/
def hexChar (code : BitVec 4) : Char :=
  if code.toNat < 10 then Char.ofNat ('0'.toNat + code.toNat) else Char.ofNat ('A'.toNat + (code.toNat - 10))

end Sys2Proof
end

