-- ==== Sys2Proof/Config.lean ====
section
/-! DEFINITION. What an implementation of PML-CORE fixes: the parameters of R6. The OPEN ones are opaque constants,
so that no proof can see their values and a claim holds for every one of them. -/

namespace Sys2Proof

/-- `TEST_TABLES` of 95_test_vectors.md §1: a hypothetical configuration that meets R68. It is NOT the device's
table: it shows that a well-formed configuration exists, and the tests use it. -/
def Config.testTables : SegTables where
  vc := #v[0x05#8, 0x75#8, 0x53#8, 0x17#8, 0x01#8, 0x02#8, 0x04#8, 0x10#8, 0x20#8, 0x40#8]
  pe := #v[0x3F#7, 0x06#7, 0x5B#7, 0x4F#7, 0x66#7, 0x6D#7, 0x7D#7, 0x07#7, 0x7F#7, 0x6F#7]

/-- A configuration together with the proof that it is well formed: an ill-formed one cannot be built, which is
R68's "a model must refuse a configuration that breaks one". -/
structure Config.WellFormedTables where
  tables : SegTables
  ok : tables.wellFormed = true
  deriving DecidableEq, Repr

/-- The segment tables this hardware is built with, OPEN but for R68 (R6, R7; D10; DEDUCED,
notes/assumptions/5.md).
The bracketed argument only tells Lean that the type has an element; no value can be read off. -/
opaque Config.hardwareTables [Inhabited Config.WellFormedTables] : Config.WellFormedTables

/-- `VC_TABLE` and `PE_TABLE` of this hardware, fixed for its life (R7). -/
def Config.tables : SegTables :=
  (@Config.hardwareTables ⟨⟨Config.testTables, by decide⟩⟩).tables

/-- The tables meet R68, whichever they are. -/
theorem Config.tables_wellFormed : Config.tables.wellFormed = true :=
  (@Config.hardwareTables ⟨⟨Config.testTables, by decide⟩⟩).ok

/-- `CS_INIT_LEVEL`: the chip-select level when reset is released, OPEN (R6; D7; DEDUCED, notes/assumptions/4.md). -/
opaque Config.csInitLevel : LineLevel

end Sys2Proof
end

