-- ==== Sys2Proof/Machine/State.lean ====
section
/-! DEFINITION. The state of PML-CORE and of the lines through which its agents act on it; responses; the reasons a
step can stop; the state after reset. -/

namespace Sys2Proof.Machine

/-- The frame buffer: `RING_SLOTS = 32` captured words of 17 bits (R21, R41). DESIGN CHOICE: a vector, not a list of
byte cells (notes/assumptions/8.md). -/
abbrev FrameBuffer := Vector Word 32

/-- The 16 digit-slot bytes of one request (R43). -/
abbrev DigitSlots := Vector Byte 16

/-- The persistent state of PML-CORE, "exactly the record { buf, cursor, pos, cs_active }" (R20). -/
structure CoreState where
  /-- The frame buffer (R21). -/
  buf : FrameBuffer
  /-- The write cursor, 0..31 (R22). -/
  cursor : Fin 32
  /-- The bit-write position, 0..17 (R23). -/
  pos : Fin 18
  /-- The clock is sampled (R24). -/
  csActive : Bool
  deriving DecidableEq, Repr

/-- The response record of a host request (R74). -/
structure Response where
  /-- 0 = OK, 1 = NOT_FOUND. -/
  status : Bit
  /-- The decoder's integer accumulator, or 0. -/
  raw : BitVec 32
  /-- The DP flag or the KILO flag, or 0. -/
  flag : Bit
  /-- A binary32 word or a 32-bit two's complement integer, or 0. -/
  value : BitVec 32
  /-- DUMP's digit-slot bytes, or all 0. -/
  slots : DigitSlots
  deriving DecidableEq, Repr

/-- PML-CORE and its surroundings. `core` is the hardware's state (R20). The other fields belong to the agents:
`csLevel` is the environment's chip-select line (R27, R137; DEDUCED, notes/assumptions/4.md), `stimulus` the operations
still to be applied, in their one total order (R51, R138, R141; DESIGN CHOICE, notes/assumptions/1.md), `responses` what
the host has been given so far, oldest first (R28, R142; DESIGN CHOICE, notes/assumptions/3.md). -/
structure State where
  core : CoreState
  csLevel : LineLevel
  stimulus : List StimulusWord
  responses : List Response
  deriving DecidableEq, Repr

/-- PML-CORE raises no exception and takes no trap (R131): no step ends in a fault. -/
inductive Fault where
  deriving DecidableEq, Repr

/-- Why a step has no meaning. -/
inductive Refusal where
  /-- An arm of exec that has no meaning yet; no arm of this model is such. Safe. -/
  | notModelled (mnemonic : String)
  /-- A reserved operation code was given: "A model must refuse them" (R71). Raised by the four reserved rows
  (notes/assumptions/15.md). Safe. -/
  | reservedOperation (code : BitVec 4)
  deriving DecidableEq, Repr

/-- The reset values of the hardware's state (R35). -/
def CoreState.reset : CoreState where
  buf := Vector.replicate 32 0#17
  cursor := 0
  pos := 0
  csActive := false

/-- The machine right after reset: the hardware's state by R35, the line at `CS_INIT_LEVEL` (R137), no operation
given yet and no response returned yet (DESIGN CHOICE for the last two: notes/assumptions/1.md and 3.md). -/
def State.reset : State where
  core := CoreState.reset
  csLevel := Config.csInitLevel
  stimulus := []
  responses := []

end Sys2Proof.Machine
end

