-- ==== Sys2Proof/Machine/Ops.lean ====
section
/-! DEFINITION. The named operations over the frame buffer, the sampler's registers, the stimulus and the responses.
PML-CORE takes no exception and has no return from one (R131, R139, R140), so no such operation stands here. -/

namespace Sys2Proof.Machine

/-! ### The frame buffer -/

/-- `MemRead(i, 1)`: one whole ring slot (R10, R44). -/
def memRead (b : FrameBuffer) (i : Fin 32) : Word := b[i.val]

/-- `MemWrite(i, 1, w)`: one whole ring slot (R10, R44). -/
def memWrite (b : FrameBuffer) (i : Fin 32) (w : Word) : FrameBuffer := b.set i.val w

/-! ### The bit sampler's three responses and RESET, on the hardware's state -/

/-- CS_FALL begins a transaction in the ring slot at the cursor (R81). -/
def coreCsFall (c : CoreState) : CoreState :=
  { c with pos := 0, buf := memWrite c.buf c.cursor 0#17, csActive := true }

/-- SCLK_RISE(d) samples one bit while the clock is enabled and the word is not full (R82). -/
def coreSclkRise (d : Bit) (c : CoreState) : CoreState :=
  if h : c.csActive = true ∧ c.pos.val ≤ 16 then
    { c with
      buf := memWrite c.buf c.cursor (memRead c.buf c.cursor ||| (d.setWidth 17 <<< (16 - c.pos.val)))
      pos := ⟨c.pos.val + 1, by omega⟩ }
  else c

/-- CS_RISE ends the transaction and advances the ring modulo 32; `pos` and `buf` stay (R83). -/
def coreCsRise (c : CoreState) : CoreState :=
  { c with csActive := false, cursor := ⟨(c.cursor.val + 1) % 32, Nat.mod_lt _ (by decide)⟩ }

/-- RESET clears every element (R151). -/
def coreReset (_ : CoreState) : CoreState :=
  { buf := Vector.replicate 32 0#17, cursor := 0, pos := 0, csActive := false }

/-! ### The same with the environment's line -/

/-- A falling chip-select edge: the environment's line goes low (R137) and the hardware responds (R81). -/
def csFall (s : State) : State := { s with core := coreCsFall s.core, csLevel := .low }

/-- A rising clock edge with the data line at `d` (R82). -/
def sclkRise (d : Bit) (s : State) : State := { s with core := coreSclkRise d s.core }

/-- A rising chip-select edge: the environment's line goes high (R137) and the hardware responds (R83). -/
def csRise (s : State) : State := { s with core := coreCsRise s.core, csLevel := .high }

/-- RESET does not change the environment's line (R151). -/
def resetCore (s : State) : State := { s with core := coreReset s.core }

/-- The rising clock edges of a transaction, in order. -/
def sampleBits (bits : List Bit) (s : State) : State := bits.foldl (fun t d => sclkRise d t) s

/-- One bus transaction: CS_FALL, one SCLK_RISE per bit, CS_RISE (R76, `xact`). -/
def transact (bits : List Bit) (s : State) : State := csRise (sampleBits bits (csFall s))

/-- The transaction that carries a 17-bit word (R62, R76, `word W`). -/
def transactWord (w : Word) (s : State) : State := transact (serialBits w) s

/-! ### The host's side -/

/-- Return a response to the host in this step; the hardware keeps nothing (R28, R124, R163). -/
def reply (r : Response) (s : State) : State := { s with responses := s.responses ++ [r] }

/-! ### Taking the next operation -/

/-- The next operation that an agent produces, and the state with it taken from the stimulus. -/
def fetch (s : State) : Option (StimulusWord × State) :=
  match s.stimulus with
  | [] => none
  | w :: rest => some (w, { s with stimulus := rest })

/-- Put an item where the next step takes it from. -/
def giveNext (w : StimulusWord) (s : State) : State := { s with stimulus := w :: s.stimulus }

/-- Give the machine a program to run after what it has been given already. -/
def load (program : List StimulusWord) (s : State) : State := { s with stimulus := s.stimulus ++ program }

end Sys2Proof.Machine
end

