-- ==== Sys2Proof/Machine/BusEvents.lean ====
section
/-! DEFINITION. The meanings of the bus events and of RESET (R81 to R83, R151). -/

namespace Sys2Proof.Machine

/-- `csf`: CS_FALL (R81). -/
def execCsf (s : State) : Host.Outcome State Fault Refusal := .next (csFall s)

/-- `csr`: CS_RISE (R83). -/
def execCsr (s : State) : Host.Outcome State Fault Refusal := .next (csRise s)

/-- `clk d`: SCLK_RISE(d) (R82). -/
def execClk (d : Bit) (s : State) : Host.Outcome State Fault Refusal := .next (sclkRise d s)

/-- `rst`: RESET (R151). -/
def execRst (s : State) : Host.Outcome State Fault Refusal := .next (resetCore s)

end Sys2Proof.Machine
end

