-- ==== Sys2Proof/Machine/BusWords.lean ====
section
/-! DEFINITION. The meanings of the bus-word rows: the word is sent on the bus in one transaction, CS_FALL, 17 clock
edges, CS_RISE (R62, R73, R76 `pkt`; DEDUCED, notes/assumptions/6.md), and so captured in the ring slot at the cursor (R84).
What a captured word is to a scan is Scan.lean's: WRITE_MEMORY words are examined, the others skipped (R63, R96). -/

namespace Sys2Proof.Machine

/-- `WRITE_MEMORY`: a transaction that carries command 5 (R63, R76). -/
def execWriteMemory (addr : BitVec 6) (data : Byte) (s : State) : Host.Outcome State Fault Refusal :=
  .next (transactWord (packWord 5 addr data) s)

/-- `IGNORED_CMD0`: a transaction that carries command 0 (R63, R72, R96). -/
def execIgnoredCmd0 (addr : BitVec 6) (data : Byte) (s : State) : Host.Outcome State Fault Refusal :=
  .next (transactWord (packWord 0 addr data) s)

/-- `IGNORED_CMD1`: a transaction that carries command 1 (R63, R72, R96). -/
def execIgnoredCmd1 (addr : BitVec 6) (data : Byte) (s : State) : Host.Outcome State Fault Refusal :=
  .next (transactWord (packWord 1 addr data) s)

/-- `IGNORED_CMD2`: a transaction that carries command 2 (R63, R72, R96). -/
def execIgnoredCmd2 (addr : BitVec 6) (data : Byte) (s : State) : Host.Outcome State Fault Refusal :=
  .next (transactWord (packWord 2 addr data) s)

/-- `IGNORED_CMD3`: a transaction that carries command 3 (R63, R72, R96). -/
def execIgnoredCmd3 (addr : BitVec 6) (data : Byte) (s : State) : Host.Outcome State Fault Refusal :=
  .next (transactWord (packWord 3 addr data) s)

/-- `IGNORED_CMD4`: a transaction that carries command 4 (R63, R72, R96). -/
def execIgnoredCmd4 (addr : BitVec 6) (data : Byte) (s : State) : Host.Outcome State Fault Refusal :=
  .next (transactWord (packWord 4 addr data) s)

/-- `IGNORED_CMD6`: a transaction that carries command 6 (R63, R72, R96). -/
def execIgnoredCmd6 (addr : BitVec 6) (data : Byte) (s : State) : Host.Outcome State Fault Refusal :=
  .next (transactWord (packWord 6 addr data) s)

/-- `IGNORED_CMD7`: a transaction that carries command 7 (R63, R72, R96). -/
def execIgnoredCmd7 (addr : BitVec 6) (data : Byte) (s : State) : Host.Outcome State Fault Refusal :=
  .next (transactWord (packWord 7 addr data) s)

end Sys2Proof.Machine
end

