-- ==== Sys2Proof/Machine/Flags.lean ====
section
/-! DEFINITION. The flags of R32 that are captured data: bit 0 of digit slots 10 and 15. The persistent flag
`cs_active` is a field of the state (Ops.lean writes it); `started` is local to a scan (Scan.lean). -/

namespace Sys2Proof.Machine

/-- Bit 0 of a digit-slot byte (R67). -/
def lowBit (b : Byte) : Bit := b.extractLsb' 0 1

/-- The DP flag: bit 0 of digit slot 10, 1 means tenths (R32, R67, R116). -/
def dpFlag (slot : DigitSlots) : Bit := lowBit slot[10]

/-- The KILO flag: bit 0 of digit slot 15, 1 means times 1000 (R32, R67, R117). -/
def kiloFlag (slot : DigitSlots) : Bit := lowBit slot[15]

end Sys2Proof.Machine
end

