-- ==== Sys2Proof/Machine/Float.lean ====
section
/-! DEFINITION. `RNE32(q)`: the IEEE 754 binary32 word nearest an exact non-negative rational, ties to even
(R10, R120). The rational is given as `num ÷ den`. -/

namespace Sys2Proof.Machine

/-- The exponent `e` with `2^e ≤ num ÷ den < 2^(e+1)`, for positive `num` and `den`. -/
def floorLog2 (num den : Nat) : Int :=
  let e : Int := (Nat.log2 num : Int) - (Nat.log2 den : Int)
  if den * 2 ^ e.toNat ≤ num * 2 ^ (-e).toNat then e else e - 1

/-- `n ÷ d` rounded to the nearest natural, ties to even. -/
def roundEven (n d : Nat) : Nat :=
  let q := n / d
  let r := n % d
  if 2 * r > d ∨ (2 * r = d ∧ q % 2 = 1) then q + 1 else q

/-- `RNE32(num ÷ den)` for positive `den` (R10). The significand is rounded in units of the last place `2^u`; adding
it to the exponent field lets a carry run into the exponent. Outside the accumulators' range the result follows
IEEE 754 too: subnormal words below, the infinity 0x7F800000 above; no operation reaches those
(PRESUMED, notes/assumptions/7.md). -/
def rne32 (num den : Nat) : BitVec 32 :=
  if num = 0 ∨ den = 0 then 0#32
  else
    let u : Int := max (floorLog2 num den) (-126) - 23
    let m := roundEven (num * 2 ^ (-u).toNat) (den * 2 ^ u.toNat)
    BitVec.ofNat 32 (min ((u + 149).toNat * 2 ^ 23 + m) 0x7F800000)

end Sys2Proof.Machine
end

