-- ==== Sys2Proof/Machine/Operands.lean ====
section
/-! DEFINITION. Operand forms of the scan and the decoder: what a captured word is to the scan, the data mask, the
digit codes of a digit-slot byte. -/

namespace Sys2Proof.Machine

/-- `CMD_WRITE`, the one command the validator acts on (R6, R63). -/
def cmdWrite : BitVec 3 := 5

/-- The word is a WRITE_MEMORY word (R63). -/
def isWrite (w : Word) : Bool := cmdOf w == cmdWrite

/-- The data mask: 0x77 for addresses at most 14, 0xFF otherwise (R65, R99). -/
def dataMask (a : BitVec 6) : Byte := if a.toNat ≤ 14 then 0x77#8 else 0xFF#8

/-- The digit-slot byte of an accepted word, `DATA & mask` (R65, R100). -/
def maskedData (w : Word) : Byte := dataOf w &&& dataMask (addrOf w)

/-- The segment code of a power or energy byte, `b >> 1`, 7 bits (R67, R110). -/
def peCode (b : Byte) : BitVec 7 := b.extractLsb' 1 7

end Sys2Proof.Machine
end

