-- ==== Sys2Proof/Machine/Scan.lean ====
section
/-! DEFINITION. The packet validator / extractor: EXTRACT over a snapshot of the frame buffer (R92 to R108). -/

namespace Sys2Proof.Machine

/-- The working variables of one scan (R26); they exist only while a request is evaluated. -/
structure Scan where
  /-- The address expected next, 0..32. -/
  expected : Nat
  /-- The scan has seen its first address-0 packet (R97). -/
  started : Bool
  /-- The next digit slot, 0..16. -/
  k : Nat
  /-- The digit slots stored so far (the others are not read before they are written: DESIGN CHOICE,
  notes/assumptions/14.md). -/
  slot : DigitSlots
  deriving DecidableEq, Repr

/-- What EXTRACT returns (R92). -/
inductive Extraction where
  | found (slot : DigitSlots)
  | notFound
  deriving DecidableEq, Repr

/-- What the scan does after examining one word: go on, or end with a result. -/
inductive Verdict where
  | goOn (st : Scan)
  | done (r : Extraction)
  deriving DecidableEq, Repr

/-- The working variables as every request starts them (R26, R94). -/
def Scan.start : Scan where
  expected := 0
  started := false
  k := 0
  slot := Vector.replicate 16 0#8

/-- Accept a word: store its masked byte, advance `k` and `expected` (R99, R100). -/
def Scan.accept (st : Scan) (w : Word) : Scan where
  expected := st.expected + 2
  started := true
  k := st.k + 1
  slot := st.slot.setIfInBounds st.k (maskedData w)

/-- One turn of EXTRACT's loop: the word `snap[i]` is skipped (R96, R97), fails the scan (R98), is accepted (R100),
or completes the sequence (R101). -/
def Scan.examine (st : Scan) (w : Word) : Verdict :=
  if !isWrite w then .goOn st
  else if st.started = false ∧ addrOf w ≠ 0#6 then .goOn st
  else if (addrOf w).toNat ≠ st.expected then .done .notFound
  else if addrOf w = 30#6 then .done (.found (st.accept w).slot)
  else .goOn (st.accept w)

/-- The loop over the words that are left; running out of words is NotFound (R102). -/
def Scan.run (st : Scan) : List Word → Extraction
  | [] => .notFound
  | w :: ws =>
    match st.examine w with
    | .done r => r
    | .goOn st' => st'.run ws

/-- How many words the loop examines before it returns (R92, R98, R101). -/
def Scan.examined (st : Scan) : List Word → Nat
  | [] => 0
  | w :: ws =>
    match st.examine w with
    | .done _ => 1
    | .goOn st' => st'.examined ws + 1

/-- `EXTRACT(snap)`: the snapshot in physical index order, once (R93, R94). -/
def extract (snap : FrameBuffer) : Extraction := Scan.start.run snap.toList

end Sys2Proof.Machine
end

