-- ==== Sys2Proof/Machine/Decoder.lean ====
section
/-! DEFINITION. The digit decoder: table matching, accumulators, and the responses of the five host requests
(R109 to R129), for any segment tables. -/

namespace Sys2Proof.Machine

/-! ### Table matching and accumulation -/

/-- The digits in order. -/
def digits : List (Fin 10) := [0, 1, 2, 3, 4, 5, 6, 7, 8, 9]

/-- `LUT_VC(b)`: the digit whose `VC_TABLE` entry is the byte, if any (R109). -/
def lutVC (t : SegTables) (b : Byte) : Option (Fin 10) := digits.find? fun d => t.vc[d.val] == b

/-- `LUT_PE(c)`: the digit whose `PE_TABLE` entry is the code, if any (R110). -/
def lutPE (t : SegTables) (c : BitVec 7) : Option (Fin 10) := digits.find? fun d => t.pe[d.val] == c

/-- A digit, or 0 where nothing matched (R111). -/
def digitOrZero : Option (Fin 10) → Nat
  | some d => d.val
  | none => 0

/-- `DIG_VC(b)` (R111). -/
def digVC (t : SegTables) (b : Byte) : Nat := digitOrZero (lutVC t b)

/-- `DIG_PE(b)`, which matches `b >> 1` (R110, R111). -/
def digPE (t : SegTables) (b : Byte) : Nat := digitOrZero (lutPE t (peCode b))

/-- Four digits, most significant first, with exact integer powers of ten (R111, R115). -/
def fourDigits (d0 d1 d2 d3 : Nat) : Nat := d0 * 10 ^ 3 + d1 * 10 ^ 2 + d2 * 10 ^ 1 + d3 * 10 ^ 0

/-- `ACC_VC(slot, base)` (R111). -/
def accVC (t : SegTables) (slot : DigitSlots) (base : Fin 13) : Nat :=
  fourDigits (digVC t slot[base.val]) (digVC t slot[base.val + 1]) (digVC t slot[base.val + 2])
    (digVC t slot[base.val + 3])

/-- `ACC_PE(slot, base)` (R111). -/
def accPE (t : SegTables) (slot : DigitSlots) (base : Fin 13) : Nat :=
  fourDigits (digPE t slot[base.val]) (digPE t slot[base.val + 1]) (digPE t slot[base.val + 2])
    (digPE t slot[base.val + 3])

/-! ### Responses -/

/-- The five host requests (R69). -/
inductive RequestKind where
  | voltage
  | current
  | power
  | energy
  | dump
  deriving DecidableEq, Repr

/-- `SENT(kind)`: -1.0 as binary32, -1 as an integer, 0 for DUMP (R6, R112). -/
def sentinel : RequestKind → BitVec 32
  | .voltage | .current | .power => 0xBF800000#32
  | .energy => 0xFFFFFFFF#32
  | .dump => 0#32

/-- Digit slots that a response does not show. -/
def noSlots : DigitSlots := Vector.replicate 16 0#8

/-- `FAIL(kind)` (R112). -/
def failResponse (kind : RequestKind) : Response :=
  { status := 1, raw := 0, flag := 0, value := sentinel kind, slots := noSlots }

/-- GET_VOLTAGE's answer from extracted digit slots (R113). -/
def voltageResponse (t : SegTables) (slot : DigitSlots) : Response :=
  let acc := accVC t slot 0
  { status := 0, raw := BitVec.ofNat 32 acc, flag := 0, value := rne32 acc 100, slots := noSlots }

/-- GET_CURRENT's answer from extracted digit slots (R114). -/
def currentResponse (t : SegTables) (slot : DigitSlots) : Response :=
  let acc := accVC t slot 4
  { status := 0, raw := BitVec.ofNat 32 acc, flag := 0, value := rne32 acc 100, slots := noSlots }

/-- GET_POWER's answer from extracted digit slots (R116). -/
def powerResponse (t : SegTables) (slot : DigitSlots) : Response :=
  let acc := accPE t slot 8
  let dp := dpFlag slot
  { status := 0, raw := BitVec.ofNat 32 acc, flag := dp,
    value := if dp = 1 then rne32 acc 10 else rne32 acc 1, slots := noSlots }

/-- GET_ENERGY's answer from extracted digit slots (R117). -/
def energyResponse (t : SegTables) (slot : DigitSlots) : Response :=
  let acc := accPE t slot 12
  let kilo := kiloFlag slot
  { status := 0, raw := BitVec.ofNat 32 acc, flag := kilo,
    value := BitVec.ofNat 32 (if kilo = 1 then acc * 1000 else acc), slots := noSlots }

/-- DUMP's answer: the bytes as extracted (R118). -/
def dumpResponse (slot : DigitSlots) : Response :=
  { status := 0, raw := 0, flag := 0, value := 0, slots := slot }

/-- The kind-specific answer when the scan has found a sequence (R112). -/
def foundResponse (t : SegTables) (slot : DigitSlots) : RequestKind → Response
  | .voltage => voltageResponse t slot
  | .current => currentResponse t slot
  | .power => powerResponse t slot
  | .energy => energyResponse t slot
  | .dump => dumpResponse slot

/-- `REQUEST(kind)` on a snapshot of the frame buffer (R49, R112). -/
def request (t : SegTables) (kind : RequestKind) (snap : FrameBuffer) : Response :=
  match extract snap with
  | .notFound => failResponse kind
  | .found slot => foundResponse t slot kind

/-- A host request as a step: it answers from the buffer as it stands and writes no state (R28, R49, R112). -/
def answer (kind : RequestKind) (s : State) : State := reply (request Config.tables kind s.core.buf) s

end Sys2Proof.Machine
end

