-- ==== Sys2Proof/Machine/Requests.lean ====
section
/-! DEFINITION. The meanings of the five host requests (R113, R114, R116 to R118). -/

namespace Sys2Proof.Machine

/-- `getv`: GET_VOLTAGE (R113). -/
def execGetv (s : State) : Host.Outcome State Fault Refusal := .next (answer .voltage s)

/-- `geti`: GET_CURRENT (R114). -/
def execGeti (s : State) : Host.Outcome State Fault Refusal := .next (answer .current s)

/-- `getp`: GET_POWER (R116). -/
def execGetp (s : State) : Host.Outcome State Fault Refusal := .next (answer .power s)

/-- `gete`: GET_ENERGY (R117). -/
def execGete (s : State) : Host.Outcome State Fault Refusal := .next (answer .energy s)

/-- `dump`: DUMP (R118). -/
def execDump (s : State) : Host.Outcome State Fault Refusal := .next (answer .dump s)

end Sys2Proof.Machine
end

