-- ==== Sys2Proof/Machine/Reserved.lean ====
section
/-! DEFINITION. The reserved operation codes: they spell no operation and a model must refuse them (R71). -/

namespace Sys2Proof.Machine

/-- Code 0101 (R71). -/
def execReserved0101 (_ : State) : Host.Outcome State Fault Refusal := .refused (.reservedOperation 0b0101#4)

/-- Codes 0110 and 0111 (R71). -/
def execReserved011x (x : Bit) (_ : State) : Host.Outcome State Fault Refusal :=
  .refused (.reservedOperation (0b0110#4 ||| x.setWidth 4))

/-- Code 1101 (R71). -/
def execReserved1101 (_ : State) : Host.Outcome State Fault Refusal := .refused (.reservedOperation 0b1101#4)

/-- Codes 1110 and 1111 (R71). -/
def execReserved111x (x : Bit) (_ : State) : Host.Outcome State Fault Refusal :=
  .refused (.reservedOperation (0b1110#4 ||| x.setWidth 4))

end Sys2Proof.Machine
end

