-- ==== Sys2Proof/Machine/Dispatch.lean ====
section
/-! DEFINITION. One arm per row of the opcode table. -/

namespace Sys2Proof.Machine

def exec (i : Instr) (s : State) : Host.Outcome State Fault Refusal :=
  match i with
  | .csf => Sys2Proof.Machine.execCsf s
  | .csr => Sys2Proof.Machine.execCsr s
  | .clk d => Sys2Proof.Machine.execClk d s
  | .rst => Sys2Proof.Machine.execRst s
  | .getv => Sys2Proof.Machine.execGetv s
  | .geti => Sys2Proof.Machine.execGeti s
  | .getp => Sys2Proof.Machine.execGetp s
  | .gete => Sys2Proof.Machine.execGete s
  | .dump => Sys2Proof.Machine.execDump s
  | .reservedOp0101 => Sys2Proof.Machine.execReserved0101 s
  | .reservedOp011x x => Sys2Proof.Machine.execReserved011x x s
  | .reservedOp1101 => Sys2Proof.Machine.execReserved1101 s
  | .reservedOp111x x => Sys2Proof.Machine.execReserved111x x s
  | .writeMemory addr data => Sys2Proof.Machine.execWriteMemory addr data s
  | .ignoredCmd0 addr data => Sys2Proof.Machine.execIgnoredCmd0 addr data s
  | .ignoredCmd1 addr data => Sys2Proof.Machine.execIgnoredCmd1 addr data s
  | .ignoredCmd2 addr data => Sys2Proof.Machine.execIgnoredCmd2 addr data s
  | .ignoredCmd3 addr data => Sys2Proof.Machine.execIgnoredCmd3 addr data s
  | .ignoredCmd4 addr data => Sys2Proof.Machine.execIgnoredCmd4 addr data s
  | .ignoredCmd6 addr data => Sys2Proof.Machine.execIgnoredCmd6 addr data s
  | .ignoredCmd7 addr data => Sys2Proof.Machine.execIgnoredCmd7 addr data s

end Sys2Proof.Machine
end

