-- ==== Sys2Proof/Machine/Step.lean ====
section
/-! DEFINITION. One step: the next operation of the stimulus is taken, decoded and applied as one atomic step (R8). -/

namespace Sys2Proof.Machine

/-- One atomic step (R8, R51). With no operation given, PML-CORE takes no step of its own (R141): the state stays
(DESIGN CHOICE, notes/assumptions/2.md). -/
def step (s : State) : Host.Outcome State Fault Refusal :=
  match fetch s with
  | none => .next s
  | some (w, t) => exec (decode w) t

/-- The state with a word of the opcode table as the next operation. -/
def State.withFetchWord (s : State) (nbits w : Nat) : State :=
  match stimulusOfBits nbits w with
  | .ok x => giveNext x s
  | .error _ => s

end Sys2Proof.Machine
end

