-- ==== Sys2Proof/Machine/Stimulus.lean ====
section
/-! DEFINITION. Stimulus programs: the exact expansions of the pseudo-operations (R76), a program's encoding (R75),
and its text form (R75; what R75 and R76 leave open of the text: DESIGN CHOICE, notes/assumptions/13.md). -/

namespace Sys2Proof.Machine

/-! ### Expansion and encoding -/

/-- `bits b1 ... bn` expands to `clk b1`, ..., `clk bn` (R76). -/
def expandBits (bs : List Nat) : List Instr := bs.map fun b => .clk (BitVec.ofNat 1 b)

/-- `word W` expands to `csf`, the 17 bits most significant first, `csr` (R76). -/
def expandWord (w : Word) : List Instr := .csf :: (serialBits w).map .clk ++ [.csr]

/-- `pkt C, A, D` expands to `word (C << 14) | (A << 8) | D` (R76). -/
def expandPkt (c a d : Nat) : List Instr := expandWord (BitVec.ofNat 17 (c <<< 14 ||| a <<< 8 ||| d))

/-- The packets of `seq`, from the address of the first on (R76). -/
def expandSeqFrom (a : Nat) : List Nat → List Instr
  | [] => []
  | d :: ds => expandPkt 5 a d ++ expandSeqFrom (a + 2) ds

/-- The expansion of a line, for lines that are well formed (R76). -/
def expandLine : SourceLine → List Instr
  | .op i => [i]
  | .bits bs => expandBits bs
  | .word w => expandWord (BitVec.ofNat 17 w)
  | .pkt c a d => expandPkt c a d
  | .xact bs => .csf :: expandBits bs ++ [.csr]
  | .seq ds => expandSeqFrom 0 ds
  | .idle => []

/-- A program's encoding: the encoding of its expansion (R75, R76). An ill-formed line has none. -/
def encodeProgram : List SourceLine → Option (List StimulusWord)
  | [] => some []
  | l :: ls =>
    match l.wellFormed, encodeProgram ls with
    | true, some ws => some ((expandLine l).map encode ++ ws)
    | _, _ => none

/-- The hexadecimal digit of an item; a whole bus word has none, it is no operation of R70. -/
def hexOfItem : StimulusWord → Option Char
  | .op4 code => some (hexChar code)
  | .busWord _ => none

/-- The string of hexadecimal digits, one per operation, of a list of operation codes (R75). -/
def hexOfProgram : List StimulusWord → Option (List Char)
  | [] => some []
  | x :: xs =>
    match hexOfItem x, hexOfProgram xs with
    | some c, some cs => some (c :: cs)
    | _, _ => none

/-! ### Text -/

/-- Why a line of text is no line of a stimulus program. -/
inductive TextError where
  /-- The first word is no mnemonic of R75 or R76. -/
  | unknownMnemonic (token : List Char)
  /-- An operand is no number of R10's forms. -/
  | notANumber (token : List Char)
  /-- The mnemonic does not take these operands. -/
  | wrongOperands (mnemonic : List Char)
  /-- A number is outside what R76 requires. -/
  | illFormed (line : SourceLine)
  deriving DecidableEq, Repr

/-- A line without its comment: `;` starts one that runs to the end of the line (R75). -/
def dropComment : List Char → List Char
  | [] => []
  | c :: cs => if c = ';' then [] else c :: dropComment cs

/-- The words of a line; spaces, tabs, carriage returns and commas separate them. -/
def tokensOf : List Char → List (List Char)
  | [] => []
  | c :: cs =>
    if c = ' ' ∨ c = ',' ∨ c = '\t' ∨ c = '\r' then [] :: tokensOf cs
    else
      match tokensOf cs with
      | [] => [[c]]
      | t :: ts => (c :: t) :: ts

/-- The lines of a text. -/
def linesOf : List Char → List (List Char)
  | [] => [[]]
  | c :: cs =>
    if c = '\n' then [] :: linesOf cs
    else
      match linesOf cs with
      | [] => [[c]]
      | t :: ts => (c :: t) :: ts

/-- The value of a digit of base `base`, of the digits `hexDigit` reads. -/
def digitValue (base : Nat) (c : Char) : Option Nat :=
  match hexDigit c with
  | .ok v => if v.toNat < base then some v.toNat else none
  | .error _ => none

/-- Digits of base `base`, continued from `acc`. -/
def digitsValue (base acc : Nat) : List Char → Option Nat
  | [] => some acc
  | c :: cs =>
    match digitValue base c with
    | some v => digitsValue base (acc * base + v) cs
    | none => none

/-- An integer literal: decimal unless written `0x` or `0b` (R10). -/
def numberOf : List Char → Option Nat
  | [] => none
  | '0' :: 'x' :: c :: cs => digitsValue 16 0 (c :: cs)
  | '0' :: 'b' :: c :: cs => digitsValue 2 0 (c :: cs)
  | c :: cs => digitsValue 10 0 (c :: cs)

/-- All the operands of a line as numbers. -/
def numbersOf : List (List Char) → Except TextError (List Nat)
  | [] => .ok []
  | t :: ts =>
    match numberOf t, numbersOf ts with
    | some n, .ok ns => .ok (n :: ns)
    | none, _ => .error (.notANumber t)
    | some _, .error e => .error e

/-- The line that a mnemonic of R75 or R76 makes with its operands. -/
def lineOf (m : List Char) (ns : List Nat) : Except TextError SourceLine :=
  if m = ['c', 's', 'f'] then (if ns = [] then .ok (.op .csf) else .error (.wrongOperands m))
  else if m = ['c', 's', 'r'] then (if ns = [] then .ok (.op .csr) else .error (.wrongOperands m))
  else if m = ['c', 'l', 'k'] then
    match ns with
    | [0] => .ok (.op (.clk 0#1))
    | [1] => .ok (.op (.clk 1#1))
    | _ => .error (.wrongOperands m)
  else if m = ['r', 's', 't'] then (if ns = [] then .ok (.op .rst) else .error (.wrongOperands m))
  else if m = ['g', 'e', 't', 'v'] then (if ns = [] then .ok (.op .getv) else .error (.wrongOperands m))
  else if m = ['g', 'e', 't', 'i'] then (if ns = [] then .ok (.op .geti) else .error (.wrongOperands m))
  else if m = ['g', 'e', 't', 'p'] then (if ns = [] then .ok (.op .getp) else .error (.wrongOperands m))
  else if m = ['g', 'e', 't', 'e'] then (if ns = [] then .ok (.op .gete) else .error (.wrongOperands m))
  else if m = ['d', 'u', 'm', 'p'] then (if ns = [] then .ok (.op .dump) else .error (.wrongOperands m))
  else if m = ['b', 'i', 't', 's'] then .ok (.bits ns)
  else if m = ['w', 'o', 'r', 'd'] then
    match ns with
    | [w] => .ok (.word w)
    | _ => .error (.wrongOperands m)
  else if m = ['p', 'k', 't'] then
    match ns with
    | [c, a, d] => .ok (.pkt c a d)
    | _ => .error (.wrongOperands m)
  else if m = ['x', 'a', 'c', 't'] then .ok (.xact ns)
  else if m = ['s', 'e', 'q'] then .ok (.seq ns)
  else if m = ['i', 'd', 'l', 'e'] then (if ns = [] then .ok .idle else .error (.wrongOperands m))
  else .error (.unknownMnemonic m)

/-- One line of text: nothing where only a comment or blanks stand, else a well-formed line of the program. -/
def parseLine (text : List Char) : Except TextError (Option SourceLine) :=
  match (tokensOf (dropComment text)).filter (fun t => !t.isEmpty) with
  | [] => .ok none
  | m :: operands =>
    match numbersOf operands with
    | .error e => .error e
    | .ok ns =>
      match lineOf m ns with
      | .error e => .error e
      | .ok l => if l.wellFormed then .ok (some l) else .error (.illFormed l)

/-- The lines of a program that are not blank, in order. -/
def parseLines : List (List Char) → Except TextError (List SourceLine)
  | [] => .ok []
  | t :: ts =>
    match parseLine t, parseLines ts with
    | .error e, _ => .error e
    | .ok _, .error e => .error e
    | .ok none, .ok ls => .ok ls
    | .ok (some l), .ok ls => .ok (l :: ls)

/-- A whole stimulus program (R75, R76). -/
def parseProgram (text : List Char) : Except TextError (List SourceLine) := parseLines (linesOf text)

end Sys2Proof.Machine
end

