-- ==== Sys2Proof/Safety.lean ====
section
/-! DEFINITION. What claims about runs are stated in: which operations a single chip-select line allows (R137), the
invariant of R36, runs of a list of operations, which rows are of which kind, and how many ring slots are in use. -/

namespace Sys2Proof.Machine

/-- The environment can produce the operation now: chip-select events alternate by one line level, clock edges are
possible at any time (R137), requests and RESET too (R141, R142). A whole bus word begins with a falling edge. -/
def permitted (i : Instr) (s : State) : Bool :=
  match i with
  | .csf => decide (s.csLevel = .high)
  | .csr => decide (s.csLevel = .low)
  | .clk _ | .rst | .getv | .geti | .getp | .gete | .dump => true
  | .reservedOp0101 | .reservedOp011x _ | .reservedOp1101 | .reservedOp111x _ => false
  | .writeMemory _ _ | .ignoredCmd0 _ _ | .ignoredCmd1 _ _ | .ignoredCmd2 _ _ | .ignoredCmd3 _ _
  | .ignoredCmd4 _ _ | .ignoredCmd6 _ _ | .ignoredCmd7 _ _ => decide (s.csLevel = .high)

/-- R36(c): while a transaction runs, every bit of the in-progress word below position `17 − pos` is 0. -/
def CoreState.unsampledBitsClear (c : CoreState) : Prop :=
  c.csActive = true → (memRead c.buf c.cursor).toNat &&& ((1 <<< (17 - c.pos.val)) - 1) = 0

/-- The invariants of R36, (a), (b) and (c). -/
structure CoreState.Inv (c : CoreState) : Prop where
  cursor_le : c.cursor.val ≤ 31
  pos_le : c.pos.val ≤ 17
  words_lt : ∀ j : Fin 32, (memRead c.buf j).toNat < 2 ^ 17
  unsampled : c.unsampledBitsClear

/-- The clock is enabled only while the environment's chip-select line is low (R24, R136, R137). -/
def State.clockOnlyWhileLow (s : State) : Prop := s.core.csActive = true → s.csLevel = .low

/-- The operations one after another, each as one atomic step (R8, R51). -/
def runOps : List Instr → State → Host.Outcome State Fault Refusal
  | [], s => .next s
  | i :: is, s =>
    match exec i s with
    | .next t => runOps is t
    | .fault r => .fault r
    | .refused r => .refused r

/-- The five host requests, with what each asks for (R69). -/
def requestKind : Instr → Option RequestKind
  | .getv => some .voltage
  | .geti => some .current
  | .getp => some .power
  | .gete => some .energy
  | .dump => some .dump
  | .csf | .csr | .clk _ | .rst => none
  | .reservedOp0101 | .reservedOp011x _ | .reservedOp1101 | .reservedOp111x _ => none
  | .writeMemory _ _ | .ignoredCmd0 _ _ | .ignoredCmd1 _ _ | .ignoredCmd2 _ _ | .ignoredCmd3 _ _
  | .ignoredCmd4 _ _ | .ignoredCmd6 _ _ | .ignoredCmd7 _ _ => none

/-- The captured word that a bus-word row carries (R60, R63). -/
def carriedWord : Instr → Option Word
  | .writeMemory a d => some (packWord 5 a d)
  | .ignoredCmd0 a d => some (packWord 0 a d)
  | .ignoredCmd1 a d => some (packWord 1 a d)
  | .ignoredCmd2 a d => some (packWord 2 a d)
  | .ignoredCmd3 a d => some (packWord 3 a d)
  | .ignoredCmd4 a d => some (packWord 4 a d)
  | .ignoredCmd6 a d => some (packWord 6 a d)
  | .ignoredCmd7 a d => some (packWord 7 a d)
  | .csf | .csr | .clk _ | .rst | .getv | .geti | .getp | .gete | .dump => none
  | .reservedOp0101 | .reservedOp011x _ | .reservedOp1101 | .reservedOp111x _ => none

/-- The operation begins a transaction: a falling chip-select edge, or a whole bus word. -/
def startsTransaction (i : Instr) : Bool := decide (i = .csf) || (carriedWord i).isSome

/-- A ring slot is in use: it holds a word other than 0, or the transaction in progress writes it (R37, R41). -/
def CoreState.slotInUse (c : CoreState) (j : Fin 32) : Bool :=
  decide (memRead c.buf j ≠ 0#17) || (c.csActive && decide (j = c.cursor))

/-- How many ring slots are in use. -/
def CoreState.slotsInUse (c : CoreState) : Nat := (List.finRange 32).countP c.slotInUse

/-- How many transactions the items of a stimulus begin. -/
def transactionsIn (program : List StimulusWord) : Nat := program.countP fun w => startsTransaction (decode w)

/-- Ring slots in use and transactions still to begin are together at most `n` (R154). -/
def State.withinBudget (n : Nat) (s : State) : Prop := s.core.slotsInUse + transactionsIn s.stimulus ≤ n

end Sys2Proof.Machine
end

