-- ==== Sys2Proof/Certificates/Slice0/Obligations.lean ====
section
/-! DEFINITION. The statements for the provers. Each says what one rule of the spec, or a few, require of the model. -/

open Sys2Proof Sys2Proof.Machine

namespace Sys2Proof.Spec

/-! ### Words the statements share -/

/-- The word is a command-5 packet with the given display address (R60, R63). -/
def IsPacket (w : Word) (a : Nat) : Prop := cmdOf w = 5#3 ∧ (addrOf w).toNat = a

/-- `W & ~((1 << (17 − m)) − 1)`: the word with its low `17 − m` bits cleared (R85). -/
def truncated (w : Word) (m : Nat) : Word := w &&& ~~~((1#17 <<< (17 - m)) - 1#17)

/-- The state after a whole transaction has left the word in the ring slot at the cursor; nothing else changes. -/
def captured (w : Word) (s : State) : State :=
  { s with
    core :=
      { buf := s.core.buf.set s.core.cursor.val w
        cursor := ⟨(s.core.cursor.val + 1) % 32, Nat.mod_lt _ (by decide)⟩
        pos := 17
        csActive := false }
    csLevel := .high }

/-- The state after a response has been returned to the host; nothing else changes. -/
def replied (r : Response) (s : State) : State := { s with responses := s.responses ++ [r] }

/-- Digit slots that are all 0. -/
def zeroSlots : DigitSlots := Vector.replicate 16 0#8

/-- `n` is what the voltage/current table makes of a digit-slot byte: the digit whose entry it is, or 0 (R109, R111). -/
def ReadsVC (t : SegTables) (b : Byte) (n : Nat) : Prop :=
  (∃ d : Fin 10, t.vc[d.val] = b ∧ n = d.val) ∨ ((∀ d : Fin 10, t.vc[d.val] ≠ b) ∧ n = 0)

/-- The same for the power/energy table, whose entry is compared with the byte's bits 7:1 (R110, R111). -/
def ReadsPE (t : SegTables) (b : Byte) (n : Nat) : Prop :=
  (∃ d : Fin 10, t.pe[d.val].toNat = b.toNat / 2 ∧ n = d.val) ∨
    ((∀ d : Fin 10, t.pe[d.val].toNat ≠ b.toNat / 2) ∧ n = 0)

/-- The value of a finite non-negative binary32 word (R10). -/
def binary32 (w : BitVec 32) : ℚ :=
  let e : Nat := w.toNat / 2 ^ 23
  let f : Nat := w.toNat % 2 ^ 23
  if e = 0 then (f : ℚ) / 2 ^ 149 else ((2 ^ 23 + f : ℕ) : ℚ) * 2 ^ e / 2 ^ 150

/-- The DATA bits that an accessor can depend on, by the packet's address (R127). -/
def readBits (a : Nat) : Byte :=
  if a ≤ 14 then 0x77#8 else if a = 20 ∨ a ≥ 30 then 0xFF#8 else 0xFE#8

/-- Two buffers agree in everything but bits the decoder never looks at (R127). -/
def SameReadBits (a b : FrameBuffer) : Prop :=
  ∀ j : Fin 32, cmdOf a[j.val] = cmdOf b[j.val] ∧ addrOf a[j.val] = addrOf b[j.val] ∧
    dataOf a[j.val] &&& readBits (addrOf a[j.val]).toNat = dataOf b[j.val] &&& readBits (addrOf a[j.val]).toNat

/-- The operation neither ends a transaction nor resets: CS_FALL, a clock edge or a host request. -/
def staysInSlot (i : Instr) : Prop := i = .csf ∨ (∃ d, i = .clk d) ∨ (requestKind i).isSome = true

/-- The operation leaves the chip-select line alone and does not reset: a clock edge or a host request. -/
def keepsChipSelect (i : Instr) : Prop := (∃ d, i = .clk d) ∨ (requestKind i).isSome = true

end Sys2Proof.Spec

open Sys2Proof.Spec

/-! ### Encoding and the step -/

/-- Decoding an encoded instruction gives it back, for every row of the table and every operand (R60, R70, R71). -/
def Obligations.DecodeAfterEncodeIsIdentity : Prop := ∀ i : Instr, decode (encode i) = i

/-- Every operation code and every bus word is the encoding of the one row it decodes to (R70, R71, R72). -/
def Obligations.EncodeAfterDecodeIsIdentity : Prop := ∀ w : StimulusWord, encode (decode w) = w

/-- The table of R70, code by code; and among the operations `op[3]` tells a host request from a bus-side or reset
operation. -/
def Obligations.OperationCodesDecodeByTheTable : Prop :=
  decode (.op4 0b0000#4) = .csf ∧ decode (.op4 0b0001#4) = .csr ∧
  decode (.op4 0b0010#4) = .clk 0#1 ∧ decode (.op4 0b0011#4) = .clk 1#1 ∧
  decode (.op4 0b0100#4) = .rst ∧ decode (.op4 0b0101#4) = .reservedOp0101 ∧
  decode (.op4 0b0110#4) = .reservedOp011x 0#1 ∧ decode (.op4 0b0111#4) = .reservedOp011x 1#1 ∧
  decode (.op4 0b1000#4) = .getv ∧ decode (.op4 0b1001#4) = .geti ∧
  decode (.op4 0b1010#4) = .getp ∧ decode (.op4 0b1011#4) = .gete ∧
  decode (.op4 0b1100#4) = .dump ∧ decode (.op4 0b1101#4) = .reservedOp1101 ∧
  decode (.op4 0b1110#4) = .reservedOp111x 0#1 ∧ decode (.op4 0b1111#4) = .reservedOp111x 1#1 ∧
  ∀ code : BitVec 4, (decode (.op4 code)).isOperation = true →
    code.getLsbD 3 = (requestKind (decode (.op4 code))).isSome

/-- R61: the three fields are the unsigned slices `w[16:14]`, `w[13:8]` and `w[7:0]`. -/
def Obligations.FieldsOfACapturedWord : Prop :=
  ∀ w : Word, (cmdOf w).toNat = w.toNat / 2 ^ 14 ∧ (addrOf w).toNat = w.toNat / 2 ^ 8 % 2 ^ 6 ∧
    (dataOf w).toNat = w.toNat % 2 ^ 8

/-- R60, R63: the word of command C, address A, data D decodes to C's row with those operands; R62's example word. -/
def Obligations.BusWordsDecodeByTheirCommand : Prop :=
  (∀ (a : BitVec 6) (d : Byte),
    decode (.busWord (packWord 0 a d)) = .ignoredCmd0 a d ∧ decode (.busWord (packWord 1 a d)) = .ignoredCmd1 a d ∧
    decode (.busWord (packWord 2 a d)) = .ignoredCmd2 a d ∧ decode (.busWord (packWord 3 a d)) = .ignoredCmd3 a d ∧
    decode (.busWord (packWord 4 a d)) = .ignoredCmd4 a d ∧ decode (.busWord (packWord 5 a d)) = .writeMemory a d ∧
    decode (.busWord (packWord 6 a d)) = .ignoredCmd6 a d ∧ decode (.busWord (packWord 7 a d)) = .ignoredCmd7 a d) ∧
  decode (.busWord 0b10100000001110101#17) = .writeMemory 0 0x75

/-- A step takes the next operation given and runs it, as one atomic step (R8). -/
def Obligations.StepRunsTheDecodedOperation : Prop :=
  ∀ (s : State) (w : StimulusWord) (rest : List StimulusWord),
    s.stimulus = w :: rest → step s = exec (decode w) { s with stimulus := rest }

/-- With no operation given the state stays: PML-CORE takes no step of its own (R141). That a step is then the
identity, and not a stop, is the model's choice (notes/assumptions/2.md). -/
def Obligations.StepWithoutOperationKeepsTheState : Prop :=
  ∀ s : State, s.stimulus = [] → step s = .next s

/-- R71: the six reserved codes are refused, each under its own code. -/
def Obligations.ReservedCodesAreRefused : Prop :=
  ∀ code ∈ [0b0101#4, 0b0110#4, 0b0111#4, 0b1101#4, 0b1110#4, 0b1111#4], ∀ s : State,
    exec (decode (.op4 code)) s = .refused (.reservedOperation code)

/-- No step but one on a reserved code stops: nothing traps (R131) and no captured word is illegal (R72). -/
def Obligations.OnlyReservedCodesStopTheMachine : Prop :=
  ∀ s : State, (∃ t, step s = .next t) ∨
    ∃ code rest, s.stimulus = .op4 code :: rest ∧
      code ∈ [0b0101#4, 0b0110#4, 0b0111#4, 0b1101#4, 0b1110#4, 0b1111#4] ∧
      step s = .refused (.reservedOperation code)

/-! ### The bit sampler -/

/-- R81: CS_FALL zeroes the slot at the cursor, sets `pos` to 0 and enables the clock; all else stays. -/
def Obligations.CsFallBeginsATransaction : Prop :=
  ∀ s : State, exec .csf s = .next
    { s with
      core := { buf := s.core.buf.set s.core.cursor.val 0#17, cursor := s.core.cursor, pos := 0, csActive := true }
      csLevel := .low }

/-- R82: SCLK_RISE(d) ORs `d` into bit `16 − pos` and advances `pos`, or has no effect; all else stays. -/
def Obligations.SclkRiseSamplesOneBit : Prop :=
  ∀ (d : Bit) (s : State),
    (∀ h : s.core.pos.val ≤ 16, s.core.csActive = true →
      exec (.clk d) s = .next
        { s with
          core :=
            { buf := s.core.buf.set s.core.cursor.val
                (s.core.buf[s.core.cursor.val] ||| (d.setWidth 17 <<< (16 - s.core.pos.val)))
              cursor := s.core.cursor
              pos := ⟨s.core.pos.val + 1, by omega⟩
              csActive := true } }) ∧
    (s.core.csActive = false ∨ s.core.pos = 17 → exec (.clk d) s = .next s)

/-- R83: CS_RISE disables the clock and advances the cursor modulo 32; `pos`, `buf` and all else stay. -/
def Obligations.CsRiseEndsTheTransaction : Prop :=
  ∀ s : State, exec .csr s = .next
    { s with
      core :=
        { buf := s.core.buf
          cursor := ⟨(s.core.cursor.val + 1) % 32, Nat.mod_lt _ (by decide)⟩
          pos := s.core.pos
          csActive := false }
      csLevel := .high }

/-- R151: RESET clears the hardware's four elements and does not change the environment's line. -/
def Obligations.ResetClearsTheHardwareState : Prop :=
  ∀ s : State, ∃ t : State, exec .rst s = .next t ∧ (∀ j : Fin 32, t.core.buf[j.val] = 0#17) ∧ t.core.cursor = 0 ∧
    t.core.pos = 0 ∧ t.core.csActive = false ∧ t.csLevel = s.csLevel ∧ t.stimulus = s.stimulus ∧
    t.responses = s.responses

/-- R35: the state after RESET. -/
def Obligations.ResetValues : Prop :=
  (∀ j : Fin 32, State.reset.core.buf[j.val] = 0#17) ∧ State.reset.core.cursor = 0 ∧ State.reset.core.pos = 0 ∧
    State.reset.core.csActive = false

/-- R88: a bus event changes no ring slot but the one at the cursor, and between one CS_RISE and the next no other
slot changes, whatever clock edges, falling edges and requests come; the cursor stays too. -/
def Obligations.BusEventsTouchOneRingSlot : Prop :=
  (∀ (i : Instr) (s t : State), i = .csf ∨ (∃ d, i = .clk d) ∨ i = .csr → exec i s = .next t →
    (∀ j : Fin 32, j ≠ s.core.cursor → t.core.buf[j.val] = s.core.buf[j.val]) ∧
    t.stimulus = s.stimulus ∧ t.responses = s.responses) ∧
  (∀ (ops : List Instr) (s : State), (∀ i ∈ ops, staysInSlot i) →
    ∃ t, runOps ops s = .next t ∧ t.core.cursor = s.core.cursor ∧
      ∀ j : Fin 32, j ≠ s.core.cursor → t.core.buf[j.val] = s.core.buf[j.val])

/-- R30, column "written by": what an operation that changes an element must be. A whole bus word (the model's
reading of those rows, notes/assumptions/6.md) counts as the events it is made of. -/
def Obligations.WritersOfEachStateElement : Prop :=
  ∀ (i : Instr) (s t : State), exec i s = .next t →
    (∀ j : Fin 32, t.core.buf[j.val] ≠ s.core.buf[j.val] →
      i = .rst ∨ (j = s.core.cursor ∧ (i = .csf ∨ (∃ d, i = .clk d) ∨ (carriedWord i).isSome = true))) ∧
    (t.core.cursor ≠ s.core.cursor → i = .csr ∨ i = .rst ∨ (carriedWord i).isSome = true) ∧
    (t.core.pos ≠ s.core.pos → i = .csf ∨ (∃ d, i = .clk d) ∨ i = .rst ∨ (carriedWord i).isSome = true) ∧
    (t.core.csActive ≠ s.core.csActive → i = .csf ∨ i = .csr ∨ i = .rst ∨ (carriedWord i).isSome = true)

/-- The eight bus-word rows: the word is captured in the slot at the cursor and the ring advances; all else stays.
That a bus-word row runs as the transaction that carries it is the model's reading (notes/assumptions/6.md). -/
def Obligations.BusWordsAreCapturedWhole : Prop :=
  ∀ (a : BitVec 6) (d : Byte) (s : State),
    exec (.writeMemory a d) s = .next (captured (packWord 5 a d) s) ∧
    exec (.ignoredCmd0 a d) s = .next (captured (packWord 0 a d) s) ∧
    exec (.ignoredCmd1 a d) s = .next (captured (packWord 1 a d) s) ∧
    exec (.ignoredCmd2 a d) s = .next (captured (packWord 2 a d) s) ∧
    exec (.ignoredCmd3 a d) s = .next (captured (packWord 3 a d) s) ∧
    exec (.ignoredCmd4 a d) s = .next (captured (packWord 4 a d) s) ∧
    exec (.ignoredCmd6 a d) s = .next (captured (packWord 6 a d) s) ∧
    exec (.ignoredCmd7 a d) s = .next (captured (packWord 7 a d) s)

/-- R84: 17 edges with levels `b1, ..., b17` leave `Σ b_n · 2^(17−n)` in the ring slot; bit 0 is the 17th sample. -/
def Obligations.SeventeenEdgesLeaveTheWord : Prop :=
  ∀ (b : Vector Bit 17) (s : State), ∃ w : Word,
    w.toNat = ∑ n : Fin 17, b[n.val].toNat * 2 ^ (16 - n.val) ∧ w.getLsbD 0 = b[16].getLsbD 0 ∧
    runOps (.csf :: b.toList.map .clk ++ [.csr]) s = .next (captured w s)

/-- A transaction cut off after `m` edges holds the word it was meant to send with its low `17 − m` bits cleared,
while it runs (R160) and after it has ended (R85); no other slot changes. -/
def Obligations.ShortCaptureKeepsTheFirstSamples : Prop :=
  ∀ (w : Word) (m : Nat) (hm : m < 17) (s : State),
    runOps (.csf :: ((serialBits w).take m).map .clk) s = .next
      { s with
        core :=
          { buf := s.core.buf.set s.core.cursor.val (truncated w m)
            cursor := s.core.cursor
            pos := ⟨m, by omega⟩
            csActive := true }
        csLevel := .low } ∧
    runOps (.csf :: ((serialBits w).take m).map .clk ++ [.csr]) s = .next
      { captured (truncated w m) s with
        core := { (captured (truncated w m) s).core with pos := ⟨m, by omega⟩ } }

/-- How the fields of a short capture read (R85, R159, R160): the command from 3 edges on, an even address from 8 on,
address 0 from 3 on, every address from 9 on, address 0 for addresses below 32 at 3 and 4, and the data cut off. -/
def Obligations.FieldsOfAShortCapture : Prop :=
  ∀ (w : Word) (m : Nat), m < 17 →
    (m = 0 → truncated w m = 0#17) ∧
    (m < 3 → cmdOf (truncated w m) ≠ 5#3) ∧
    (m = 1 ∨ m = 2 → cmdOf w = 5#3 → cmdOf (truncated w m) = 4#3) ∧
    (3 ≤ m → cmdOf (truncated w m) = cmdOf w) ∧
    (m = 3 → addrOf (truncated w m) = 0#6) ∧
    (m = 4 → (addrOf w).toNat < 32 → addrOf (truncated w m) = 0#6) ∧
    (3 ≤ m → m ≤ 9 → addrOf (truncated w m) = addrOf w &&& ~~~((1#6 <<< (9 - m)) - 1#6)) ∧
    (8 ≤ m → (addrOf w).toNat % 2 = 0 → addrOf (truncated w m) = addrOf w) ∧
    (9 ≤ m → addrOf (truncated w m) = addrOf w) ∧
    (m ≤ 9 → dataOf (truncated w m) = 0#8) ∧
    (9 ≤ m → dataOf (truncated w m) = dataOf w &&& ~~~((1#8 <<< (17 - m)) - 1#8))

/-- R86: a transaction with 17 or more edges ends as the one with its first 17 edges does, and `pos` is 17. -/
def Obligations.ExtraEdgesAreIgnored : Prop :=
  ∀ (bits : List Bit) (s : State), 17 ≤ bits.length → ∃ t : State,
    runOps (.csf :: bits.map .clk ++ [.csr]) s = .next t ∧
    runOps (.csf :: (bits.take 17).map .clk ++ [.csr]) s = .next t ∧ t.core.pos = 17

/-- R89: clock edges while `cs_active = 0` change nothing, however many; so those after RESET before a CS_FALL. -/
def Obligations.ClockEdgesOutsideATransactionAreIgnored : Prop :=
  ∀ (bits : List Bit) (s : State),
    (s.core.csActive = false → runOps (bits.map .clk) s = .next s) ∧
    (∃ t, runOps (.rst :: bits.map .clk) s = .next t ∧ runOps [.rst] s = .next t)

/-- R90: if the line is low when reset is released, edges before the first CS_RISE are ignored, and that CS_RISE moves
the cursor to 1 with every slot still 0. -/
def Obligations.FirstRiseAfterResetCapturesNothing : Prop :=
  ∀ (bits : List Bit) (s : State), ∃ t : State,
    runOps (.rst :: bits.map .clk ++ [.csr]) s = .next t ∧ t.core.cursor = 1 ∧ t.core.csActive = false ∧
    ∀ j : Fin 32, t.core.buf[j.val] = 0#17

/-- R91: after any number of complete transactions the ring holds the words of the last 32 of them, each in the slot
the cursor had; slots not reached keep their words; the cursor has advanced by their number modulo 32. -/
def Obligations.RingHoldsTheLastTransactions : Prop :=
  ∀ (ws : List Word) (s : State), ∃ t : State,
    runOps (ws.flatMap expandWord) s = .next t ∧
    t.core.cursor.val = (s.core.cursor.val + ws.length) % 32 ∧
    (∀ (k : Nat) (hk : k < ws.length), ws.length ≤ k + 32 →
      t.core.buf[(s.core.cursor.val + k) % 32]'(Nat.mod_lt _ (by decide)) = ws[k]) ∧
    (∀ k : Nat, ws.length ≤ k → k < 32 →
      t.core.buf[(s.core.cursor.val + k) % 32]'(Nat.mod_lt _ (by decide)) =
        s.core.buf[(s.core.cursor.val + k) % 32]'(Nat.mod_lt _ (by decide)))

/-! ### Invariants -/

/-- R36: every step keeps the invariants of the hardware's state, from every state that has them. -/
def Obligations.EveryStepKeepsTheInvariants : Prop :=
  ∀ s t : State, s.core.Inv → step s = .next t → t.core.Inv

/-- R36: the invariants hold after RESET. -/
def Obligations.InvariantsHoldAtReset : Prop := State.reset.core.Inv

/-- R24, R136, R137: the clock is enabled only while the chip-select line is low; this holds at reset and every step
keeps it, whatever operations are given. -/
def Obligations.ClockEnabledOnlyWhileChipSelectLow : Prop :=
  State.reset.clockOnlyWhileLow ∧
    ∀ s t : State, s.clockOnlyWhileLow → step s = .next t → t.clockOnlyWhileLow

/-- R137: chip-select events alternate: after a fall only a rise is possible, after a rise only a fall, and no other
operation of R69 moves the line. That the line is a field of State is the model's choice (notes/assumptions/4.md). -/
def Obligations.ChipSelectEventsAlternate : Prop :=
  (∀ s : State, permitted .csf s = true → permitted .csr s = false ∧
    ∃ t, exec .csf s = .next t ∧ permitted .csr t = true ∧ permitted .csf t = false) ∧
  (∀ s : State, permitted .csr s = true → permitted .csf s = false ∧
    ∃ t, exec .csr s = .next t ∧ permitted .csf t = true ∧ permitted .csr t = false) ∧
  (∀ (i : Instr) (s : State), (∃ d, i = .clk d) ∨ i = .rst ∨ (requestKind i).isSome = true →
    permitted i s = true ∧ ∃ t, exec i s = .next t ∧ t.csLevel = s.csLevel)

/-! ### Host requests -/

/-- R28: a host request changes no state of the hardware; one response is returned to the host. -/
def Obligations.RequestsChangeNoHardwareState : Prop :=
  ∀ (i : Instr) (s : State), i ∈ [Instr.getv, .geti, .getp, .gete, .dump] →
    ∃ r : Response, exec i s = .next (replied r s)

/-- R49, R48, R30: a request's response depends on the frame buffer alone: not on the cursor, the position, the clock
enable, the line, earlier requests or their responses. -/
def Obligations.RequestsReadOnlyTheFrameBuffer : Prop :=
  ∀ (i : Instr) (s t : State), i ∈ [Instr.getv, .geti, .getp, .gete, .dump] → s.core.buf = t.core.buf →
    ∃ r : Response, exec i s = .next (replied r s) ∧ exec i t = .next (replied r t)

/-- R112, R133: when the scan fails, every request answers FAIL(kind) with its sentinel. -/
def Obligations.FailedScanReturnsSentinels : Prop :=
  ∀ s : State, extract s.core.buf = .notFound →
    exec .getv s = .next (replied ⟨1, 0, 0, 0xBF800000#32, zeroSlots⟩ s) ∧
    exec .geti s = .next (replied ⟨1, 0, 0, 0xBF800000#32, zeroSlots⟩ s) ∧
    exec .getp s = .next (replied ⟨1, 0, 0, 0xBF800000#32, zeroSlots⟩ s) ∧
    exec .gete s = .next (replied ⟨1, 0, 0, 0xFFFFFFFF#32, zeroSlots⟩ s) ∧
    exec .dump s = .next (replied ⟨1, 0, 0, 0#32, zeroSlots⟩ s)

/-- R113: GET_VOLTAGE from digit slots 0 to 3; R113's example holds for every well-formed table. -/
def Obligations.GetVoltageDecodesSlotsZeroToThree : Prop :=
  ∀ (s : State) (slot : DigitSlots), extract s.core.buf = .found slot →
    (∃ d0 d1 d2 d3 : Nat, ReadsVC Config.tables slot[0] d0 ∧ ReadsVC Config.tables slot[1] d1 ∧
      ReadsVC Config.tables slot[2] d2 ∧ ReadsVC Config.tables slot[3] d3 ∧
      exec .getv s = .next (replied
        ⟨0, BitVec.ofNat 32 (d0 * 1000 + d1 * 100 + d2 * 10 + d3), 0,
          rne32 (d0 * 1000 + d1 * 100 + d2 * 10 + d3) 100, zeroSlots⟩ s)) ∧
    (slot[0] = 0x75#8 → slot[1] = 0x05#8 → slot[2] = 0x53#8 → slot[3] = 0x17#8 →
      exec .getv s = .next (replied ⟨0, 1023, 0, 0x4123AE14#32, zeroSlots⟩ s))

/-- R114: GET_CURRENT from digit slots 4 to 7, by the same table; R114's example. -/
def Obligations.GetCurrentDecodesSlotsFourToSeven : Prop :=
  ∀ (s : State) (slot : DigitSlots), extract s.core.buf = .found slot →
    (∃ d0 d1 d2 d3 : Nat, ReadsVC Config.tables slot[4] d0 ∧ ReadsVC Config.tables slot[5] d1 ∧
      ReadsVC Config.tables slot[6] d2 ∧ ReadsVC Config.tables slot[7] d3 ∧
      exec .geti s = .next (replied
        ⟨0, BitVec.ofNat 32 (d0 * 1000 + d1 * 100 + d2 * 10 + d3), 0,
          rne32 (d0 * 1000 + d1 * 100 + d2 * 10 + d3) 100, zeroSlots⟩ s)) ∧
    (slot[4] = 0x05#8 → slot[5] = 0x75#8 → slot[6] = 0x53#8 → slot[7] = 0x17#8 →
      exec .geti s = .next (replied ⟨0, 123, 0, 0x3F9D70A4#32, zeroSlots⟩ s))

/-- R116: GET_POWER from digit slots 8 to 11, in tenths when bit 0 of slot 10 is set. -/
def Obligations.GetPowerDecodesSlotsEightToEleven : Prop :=
  ∀ (s : State) (slot : DigitSlots), extract s.core.buf = .found slot →
    ∃ d0 d1 d2 d3 : Nat, ReadsPE Config.tables slot[8] d0 ∧ ReadsPE Config.tables slot[9] d1 ∧
      ReadsPE Config.tables slot[10] d2 ∧ ReadsPE Config.tables slot[11] d3 ∧
      (slot[10].getLsbD 0 = true → exec .getp s = .next (replied
        ⟨0, BitVec.ofNat 32 (d0 * 1000 + d1 * 100 + d2 * 10 + d3), 1,
          rne32 (d0 * 1000 + d1 * 100 + d2 * 10 + d3) 10, zeroSlots⟩ s)) ∧
      (slot[10].getLsbD 0 = false → exec .getp s = .next (replied
        ⟨0, BitVec.ofNat 32 (d0 * 1000 + d1 * 100 + d2 * 10 + d3), 0,
          rne32 (d0 * 1000 + d1 * 100 + d2 * 10 + d3) 1, zeroSlots⟩ s))

/-- R117: GET_ENERGY from digit slots 12 to 15, times 1000 when bit 0 of slot 15 is set. -/
def Obligations.GetEnergyDecodesSlotsTwelveToFifteen : Prop :=
  ∀ (s : State) (slot : DigitSlots), extract s.core.buf = .found slot →
    ∃ d0 d1 d2 d3 : Nat, ReadsPE Config.tables slot[12] d0 ∧ ReadsPE Config.tables slot[13] d1 ∧
      ReadsPE Config.tables slot[14] d2 ∧ ReadsPE Config.tables slot[15] d3 ∧
      (slot[15].getLsbD 0 = true → exec .gete s = .next (replied
        ⟨0, BitVec.ofNat 32 (d0 * 1000 + d1 * 100 + d2 * 10 + d3), 1,
          BitVec.ofNat 32 ((d0 * 1000 + d1 * 100 + d2 * 10 + d3) * 1000), zeroSlots⟩ s)) ∧
      (slot[15].getLsbD 0 = false → exec .gete s = .next (replied
        ⟨0, BitVec.ofNat 32 (d0 * 1000 + d1 * 100 + d2 * 10 + d3), 0,
          BitVec.ofNat 32 (d0 * 1000 + d1 * 100 + d2 * 10 + d3), zeroSlots⟩ s))

/-- R118: DUMP returns the 16 digit-slot bytes as extracted; on a failed scan, status 1 and 16 zero bytes. -/
def Obligations.DumpReturnsTheExtractedBytes : Prop :=
  (∀ (s : State) (slot : DigitSlots), extract s.core.buf = .found slot →
    exec .dump s = .next (replied ⟨0, 0, 0, 0, slot⟩ s)) ∧
  (∀ s : State, extract s.core.buf = .notFound →
    exec .dump s = .next (replied ⟨1, 0, 0, 0, zeroSlots⟩ s))

/-! ### The scan -/

/-- R103 with its converse R108(a): EXTRACT finds a sequence exactly when 16 packets with addresses 0, 2, ..., 30
stand at rising indices, the first being the first address-0 packet, with no other command-5 word between them; the
digit slots are their masked data bytes. -/
def Obligations.ExtractFindsExactlyTheCompleteRun : Prop :=
  ∀ (snap : FrameBuffer) (slot : DigitSlots), extract snap = .found slot ↔
    ∃ idx : Fin 16 → Fin 32, StrictMono idx ∧
      (∀ k : Fin 16, IsPacket snap[(idx k).val] (2 * k.val)) ∧
      (∀ j : Fin 32, j < idx 0 → ¬ IsPacket snap[j.val] 0) ∧
      (∀ j : Fin 32, idx 0 < j → j < idx 15 → cmdOf snap[j.val] = 5#3 → ∃ k, idx k = j) ∧
      (∀ k : Fin 16, slot[k.val] = dataOf snap[(idx k).val] &&& (if k.val < 8 then 0x77#8 else 0xFF#8))

/-- R96, R106: words with a command other than 5 are transparent: the result depends on the command-5 words in
order alone. -/
def Obligations.OtherCommandsAreTransparent : Prop :=
  ∀ a b : FrameBuffer,
    a.toList.filter (fun w => decide (cmdOf w = 5#3)) = b.toList.filter (fun w => decide (cmdOf w = 5#3)) →
    extract a = extract b

/-- R98: once started, a command-5 word out of turn ends the scan at once, and no later word is examined. -/
def Obligations.OutOfTurnWordEndsTheScan : Prop :=
  ∀ (st : Scan) (w : Word) (rest : List Word), st.started = true → cmdOf w = 5#3 → (addrOf w).toNat ≠ st.expected →
    st.run (w :: rest) = .notFound ∧ st.examined (w :: rest) = 1

/-- R104: EXTRACT cannot restart: a second address-0 packet before any address-30 packet makes it fail, whatever
stands later. -/
def Obligations.ScanNeverRestarts : Prop :=
  ∀ (snap : FrameBuffer) (i j : Fin 32), i < j → IsPacket snap[i.val] 0 → IsPacket snap[j.val] 0 →
    (∀ k : Fin 32, k < j → ¬ IsPacket snap[k.val] 30) → extract snap = .notFound

/-- R103, R105: a sequence whose address-0 packet stands after index 16 cannot fit and is not found; neither is one
without an address-0 packet (R108(b)). -/
def Obligations.SequenceAcrossTheEndIsNotFound : Prop :=
  ∀ snap : FrameBuffer, (∀ j : Fin 32, j.val ≤ 16 → ¬ IsPacket snap[j.val] 0) → extract snap = .notFound

/-- R92, R108(d): at most 32 words are examined, and words after the last one examined do not affect the result. -/
def Obligations.WordsAfterTheStopDoNotMatter : Prop :=
  ∀ a b : FrameBuffer, Scan.start.examined a.toList ≤ 32 ∧
    ((∀ j : Fin 32, j.val < Scan.start.examined a.toList → a[j.val] = b[j.val]) → extract a = extract b)

/-! ### Tables, accumulators and results -/

/-- R68: the tables of the hardware are well formed, whichever they are. -/
def Obligations.HardwareTablesAreWellFormed : Prop :=
  (∀ d e : Fin 10, Config.tables.vc[d.val] = Config.tables.vc[e.val] → d = e) ∧
  (∀ d e : Fin 10, Config.tables.pe[d.val] = Config.tables.pe[e.val] → d = e) ∧
  (∀ d : Fin 10, Config.tables.pe[d.val].toNat < 128) ∧
  (∀ d : Fin 10, Config.tables.vc[d.val] &&& 0x88#8 = 0#8) ∧
  Config.tables.vc[0] = 0x05#8 ∧ Config.tables.vc[1] = 0x75#8 ∧ Config.tables.vc[2] = 0x53#8 ∧
  Config.tables.vc[3] = 0x17#8

/-- R109, R110: matching returns the digit whose entry it is, and nothing where there is none. -/
def Obligations.TablesMatchExactEntries : Prop :=
  ∀ t : SegTables, t.wellFormed = true →
    (∀ (b : Byte) (d : Fin 10), lutVC t b = some d ↔ t.vc[d.val] = b) ∧
    (∀ b : Byte, lutVC t b = none ↔ ∀ d : Fin 10, t.vc[d.val] ≠ b) ∧
    (∀ (c : BitVec 7) (d : Fin 10), lutPE t c = some d ↔ t.pe[d.val] = c) ∧
    (∀ c : BitVec 7, lutPE t c = none ↔ ∀ d : Fin 10, t.pe[d.val] ≠ c) ∧
    (∀ b : Byte, (peCode b).toNat = b.toNat / 2 ∧ digPE t b = digitOrZero (lutPE t (peCode b)))

/-- R123: table patterns decode to exactly the digits they stand for, whatever the flag bits. -/
def Obligations.DecodingRecoversTableDigits : Prop :=
  ∀ (t : SegTables) (slot : DigitSlots) (base : Fin 13) (d0 d1 d2 d3 : Fin 10), t.wellFormed = true →
    (slot[base.val] = t.vc[d0.val] → slot[base.val + 1] = t.vc[d1.val] → slot[base.val + 2] = t.vc[d2.val] →
      slot[base.val + 3] = t.vc[d3.val] →
      accVC t slot base = d0.val * 10 ^ 3 + d1.val * 10 ^ 2 + d2.val * 10 + d3.val) ∧
    (∀ f0 f1 f2 f3 : Bit, slot[base.val] = t.pe[d0.val] ++ f0 → slot[base.val + 1] = t.pe[d1.val] ++ f1 →
      slot[base.val + 2] = t.pe[d2.val] ++ f2 → slot[base.val + 3] = t.pe[d3.val] ++ f3 →
      accPE t slot base = d0.val * 10 ^ 3 + d1.val * 10 ^ 2 + d2.val * 10 + d3.val)

/-- R119: digits are at most 9, accumulators at most 9999, and neither `raw` nor the energy overflows. -/
def Obligations.DecoderArithmeticDoesNotOverflow : Prop :=
  ∀ (t : SegTables) (slot : DigitSlots) (base : Fin 13),
    (∀ b : Byte, digVC t b ≤ 9 ∧ digPE t b ≤ 9) ∧ accVC t slot base ≤ 9999 ∧ accPE t slot base ≤ 9999 ∧
    (voltageResponse t slot).raw.toNat = accVC t slot 0 ∧ (currentResponse t slot).raw.toNat = accVC t slot 4 ∧
    (powerResponse t slot).raw.toNat = accPE t slot 8 ∧ (energyResponse t slot).raw.toNat = accPE t slot 12 ∧
    (energyResponse t slot).value.toNat = accPE t slot 12 * (if slot[15].getLsbD 0 then 1000 else 1) ∧
    (energyResponse t slot).value.toNat ≤ 9999000

/-- R125: setting bit 0 of digit slot 10 divides the exact power by ten and leaves `raw` as it is. -/
def Obligations.DecimalPointFlagScalesByTenth : Prop :=
  ∀ (t : SegTables) (slot : DigitSlots) (acc : Nat),
    accPE t (slot.set 10 (slot[10] &&& 0xFE#8)) 8 = acc →
    powerResponse t (slot.set 10 (slot[10] &&& 0xFE#8)) = ⟨0, BitVec.ofNat 32 acc, 0, rne32 acc 1, zeroSlots⟩ ∧
    powerResponse t (slot.set 10 (slot[10] ||| 0x01#8)) = ⟨0, BitVec.ofNat 32 acc, 1, rne32 acc 10, zeroSlots⟩

/-- R126: setting bit 0 of digit slot 15 multiplies the energy by 1000 and leaves `raw` as it is. -/
def Obligations.KiloFlagScalesByThousand : Prop :=
  ∀ (t : SegTables) (slot : DigitSlots),
    (energyResponse t (slot.set 15 (slot[15] ||| 0x01#8))).value.toNat =
      1000 * (energyResponse t (slot.set 15 (slot[15] &&& 0xFE#8))).value.toNat ∧
    (energyResponse t (slot.set 15 (slot[15] ||| 0x01#8))).raw =
      (energyResponse t (slot.set 15 (slot[15] &&& 0xFE#8))).raw

/-- R127: the bits the decoder never looks at have no effect on an accessor, and on DUMP only in the bits of
`slots` it shows: its status, raw, flag and value are the same. -/
def Obligations.IgnoredBitsHaveNoEffect : Prop :=
  ∀ s t : State, SameReadBits s.core.buf t.core.buf →
    (∀ i ∈ [Instr.getv, .geti, .getp, .gete], ∃ r : Response,
      exec i s = .next (replied r s) ∧ exec i t = .next (replied r t)) ∧
    ∃ r q : Response, exec .dump s = .next (replied r s) ∧ exec .dump t = .next (replied q t) ∧
      r.status = q.status ∧ r.raw = q.raw ∧ r.flag = q.flag ∧ r.value = q.value ∧
      (∀ k : Fin 16, r.slots[k.val] &&& readBits (2 * k.val) = q.slots[k.val] &&& readBits (2 * k.val)) ∧
      (∀ k : Fin 16, k.val < 8 → r.slots[k.val] = q.slots[k.val])

/-- R120: `RNE32` of every accumulator divided by 1, 10 or 100 is a finite binary32 word strictly nearer the exact
quotient than any other finite non-negative one: the nearest is unique, no quotient is a tie. -/
def Obligations.RoundingGivesTheUniqueNearestFloat : Prop :=
  ∀ acc den : Nat, acc ≤ 9999 → den ∈ [1, 10, 100] →
    (rne32 acc den).toNat < 0x7F800000 ∧
    ∀ w : BitVec 32, w.toNat < 0x7F800000 → w ≠ rne32 acc den →
      |binary32 (rne32 acc den) - (acc : ℚ) / den| < |binary32 w - (acc : ℚ) / den|

/-- R129: a successful value is never negative and never the sentinel, and `status` tells the two apart. -/
def Obligations.SentinelsAreNeverResults : Prop :=
  ∀ (s : State) (i : Instr) (k : RequestKind), requestKind i = some k → k ≠ .dump →
    ∃ r : Response, exec i s = .next (replied r s) ∧
      ((r.status = 0 ∧ r.value ≠ sentinel k ∧ r.value.toNat < (if k = .energy then 2 ^ 31 else 0x7F800000)) ∨
        (r.status = 1 ∧ r.value = sentinel k))

/-! ### Reset, hazards and programs -/

/-- R154: right after RESET every request answers NOT_FOUND. -/
def Obligations.RequestsRightAfterResetFail : Prop :=
  ∀ (s : State) (i : Instr) (k : RequestKind), requestKind i = some k →
    ∃ t : State, exec .rst s = .next t ∧
      exec i t = .next (replied ⟨1, 0, 0, sentinel k, zeroSlots⟩ t)

/-- R154: from the reset state, no request can find a sequence before 16 transactions have begun, whatever the other
operations and their order are. -/
def Obligations.NoSequenceBeforeSixteenTransactions : Prop :=
  ∀ (ops : List Instr) (s t : State), s.core = CoreState.reset → ops.countP startsTransaction ≤ 15 →
    runOps ops s = .next t → extract t.core.buf = .notFound

/-- R162: a ring full of complete sequences is found whatever its phase, and the bytes are those of the run that
begins at index `(16 − c) mod 16`. -/
def Obligations.RingOfCompleteSequencesIsAlwaysFound : Prop :=
  ∀ (data : Fin 32 → Byte) (c : Nat) (snap : FrameBuffer),
    (∀ j : Fin 32, snap[j.val] = packWord 5 (BitVec.ofNat 6 (2 * ((j.val + c) % 16))) (data j)) →
    ∃ slot : DigitSlots, extract snap = .found slot ∧
      ∀ k : Fin 16, slot[k.val] =
        data ⟨(16 - c % 16) % 16 + k.val, by omega⟩ &&& (if k.val < 8 then 0x77#8 else 0xFF#8)

/-- R138, R156: a clock edge together with CS_FALL is the first bit in one order and ignored in the other; together
with CS_RISE it is the last bit in one order and ignored in the other. -/
def Obligations.SimultaneousEdgesBothOrders : Prop :=
  ∀ (d : Bit) (s : State),
    (s.core.csActive = false → ∃ t u : State,
      runOps [.clk d, .csf] s = .next t ∧ t.core.pos = 0 ∧ memRead t.core.buf s.core.cursor = 0#17 ∧
      runOps [.csf, .clk d] s = .next u ∧ u.core.pos = 1 ∧
      memRead u.core.buf s.core.cursor = d.setWidth 17 <<< 16) ∧
    (s.core.csActive = true → s.core.pos.val ≤ 16 → ∃ t u : State,
      runOps [.csr, .clk d] s = .next t ∧ t.core.buf = s.core.buf ∧ t.core.pos = s.core.pos ∧
      runOps [.clk d, .csr] s = .next u ∧ u.core.pos.val = s.core.pos.val + 1 ∧
      memRead u.core.buf s.core.cursor =
        memRead s.core.buf s.core.cursor ||| d.setWidth 17 <<< (16 - s.core.pos.val))

/-- R144, R161: while chip-select stays low the ring is frozen: clock edges and requests move neither the cursor nor
the clock enable nor any slot but the one in progress, and none at all once the word is full. -/
def Obligations.HeldChipSelectFreezesTheRing : Prop :=
  ∀ (ops : List Instr) (s : State), (∀ i ∈ ops, keepsChipSelect i) →
    ∃ t : State, runOps ops s = .next t ∧ t.core.cursor = s.core.cursor ∧ t.core.csActive = s.core.csActive ∧
      t.csLevel = s.csLevel ∧
      (∀ j : Fin 32, j ≠ s.core.cursor → t.core.buf[j.val] = s.core.buf[j.val]) ∧
      (s.core.pos = 17 → t.core = s.core)

/-- R76: `word W` is 19 operations, and running them one by one ends where the bus-word row ends; the row itself is
the model's reading (notes/assumptions/6.md). -/
def Obligations.BusWordEqualsItsNineteenOperations : Prop :=
  ∀ (w : Word) (s : State), (expandWord w).length = 19 ∧
    runOps (expandWord w) s = exec (decode (.busWord w)) s

/-- R75, R76: R75's example encodes as 031; `bits`, `word`, `pkt`, `xact`, `seq` and `idle` each expand exactly as R76
says; a program's encoding is the encoding of its expansion, and a line that breaks R76's requirements has none. -/
def Obligations.PseudoOperationsExpandExactly : Prop :=
  (encodeProgram [.op .csf, .op (.clk 1#1), .op .csr]).bind hexOfProgram = some ['0', '3', '1'] ∧
  (∀ bs : List Bit, expandLine (.bits (bs.map BitVec.toNat)) = bs.map .clk) ∧
  (∀ w : Word, expandLine (.word w.toNat) =
    .csf :: ((List.finRange 17).map fun n => .clk (BitVec.ofBool (w.getLsbD (16 - n.val)))) ++ [.csr]) ∧
  (∀ c a d : Nat, c < 8 → a < 64 → d < 256 →
    expandLine (.pkt c a d) =
      expandLine (.word (packWord (BitVec.ofNat 3 c) (BitVec.ofNat 6 a) (BitVec.ofNat 8 d)).toNat)) ∧
  (∀ bs : List Bit, expandLine (.xact (bs.map BitVec.toNat)) = .csf :: bs.map .clk ++ [.csr]) ∧
  (∀ ds : Vector Nat 16, (expandLine (.seq ds.toList)).length = 304 ∧
    expandLine (.seq ds.toList) = (List.finRange 16).flatMap fun k => expandLine (.pkt 5 (2 * k.val) ds[k.val])) ∧
  expandLine .idle = [] ∧
  (∀ ls : List SourceLine, (∀ l ∈ ls, l.wellFormed = true) →
    encodeProgram ls = some ((ls.flatMap expandLine).map encode)) ∧
  (∀ ls : List SourceLine, (∃ l ∈ ls, l.wellFormed = false) → encodeProgram ls = none)

/-- R154 as an invariant of every step: the ring slots in use and the transactions still to begin together never grow
in number; and while they are at most 15, no request can find a sequence. -/
def Obligations.EveryStepKeepsTheTransactionBudget : Prop :=
  (∀ (n : Nat) (s t : State), s.withinBudget n → step s = .next t → t.withinBudget n) ∧
  (∀ s : State, s.withinBudget 15 → extract s.core.buf = .notFound)

/-- R35, R154: after RESET no slot is in use, so the budget is what the program given brings. -/
def Obligations.ResetBudgetIsTheProgramsTransactions : Prop :=
  ∀ program : List StimulusWord, (load program State.reset).withinBudget (transactionsIn program)
end

