-- ==== Sys2Proof/Laws/State.lean ====
section
/-! SUPPORT. One lemma per field per update of the state, true by definition, so that no proof unfolds an update. -/

namespace Sys2Proof.Machine

@[simp] theorem coreCsFall_buf (c : CoreState) : (coreCsFall c).buf = memWrite c.buf c.cursor 0#17 := rfl
@[simp] theorem coreCsFall_cursor (c : CoreState) : (coreCsFall c).cursor = c.cursor := rfl
@[simp] theorem coreCsFall_pos (c : CoreState) : (coreCsFall c).pos = 0 := rfl
@[simp] theorem coreCsFall_csActive (c : CoreState) : (coreCsFall c).csActive = true := rfl

@[simp] theorem coreCsRise_buf (c : CoreState) : (coreCsRise c).buf = c.buf := rfl
@[simp] theorem coreCsRise_cursor (c : CoreState) : (coreCsRise c).cursor = ⟨(c.cursor.val + 1) % 32, Nat.mod_lt _ (by decide)⟩ := rfl
@[simp] theorem coreCsRise_pos (c : CoreState) : (coreCsRise c).pos = c.pos := rfl
@[simp] theorem coreCsRise_csActive (c : CoreState) : (coreCsRise c).csActive = false := rfl

@[simp] theorem coreReset_buf (c : CoreState) : (coreReset c).buf = Vector.replicate 32 0#17 := rfl
@[simp] theorem coreReset_cursor (c : CoreState) : (coreReset c).cursor = 0 := rfl
@[simp] theorem coreReset_pos (c : CoreState) : (coreReset c).pos = 0 := rfl
@[simp] theorem coreReset_csActive (c : CoreState) : (coreReset c).csActive = false := rfl

@[simp] theorem csFall_core (s : State) : (csFall s).core = coreCsFall s.core := rfl
@[simp] theorem csFall_csLevel (s : State) : (csFall s).csLevel = .low := rfl
@[simp] theorem csFall_stimulus (s : State) : (csFall s).stimulus = s.stimulus := rfl
@[simp] theorem csFall_responses (s : State) : (csFall s).responses = s.responses := rfl

@[simp] theorem csRise_core (s : State) : (csRise s).core = coreCsRise s.core := rfl
@[simp] theorem csRise_csLevel (s : State) : (csRise s).csLevel = .high := rfl
@[simp] theorem csRise_stimulus (s : State) : (csRise s).stimulus = s.stimulus := rfl
@[simp] theorem csRise_responses (s : State) : (csRise s).responses = s.responses := rfl

@[simp] theorem sclkRise_core (d : Bit) (s : State) : (sclkRise d s).core = coreSclkRise d s.core := rfl
@[simp] theorem sclkRise_csLevel (d : Bit) (s : State) : (sclkRise d s).csLevel = s.csLevel := rfl
@[simp] theorem sclkRise_stimulus (d : Bit) (s : State) : (sclkRise d s).stimulus = s.stimulus := rfl
@[simp] theorem sclkRise_responses (d : Bit) (s : State) : (sclkRise d s).responses = s.responses := rfl

@[simp] theorem resetCore_core (s : State) : (resetCore s).core = coreReset s.core := rfl
@[simp] theorem resetCore_csLevel (s : State) : (resetCore s).csLevel = s.csLevel := rfl
@[simp] theorem resetCore_stimulus (s : State) : (resetCore s).stimulus = s.stimulus := rfl
@[simp] theorem resetCore_responses (s : State) : (resetCore s).responses = s.responses := rfl

@[simp] theorem reply_core (r : Response) (s : State) : (reply r s).core = s.core := rfl
@[simp] theorem reply_csLevel (r : Response) (s : State) : (reply r s).csLevel = s.csLevel := rfl
@[simp] theorem reply_stimulus (r : Response) (s : State) : (reply r s).stimulus = s.stimulus := rfl
@[simp] theorem reply_responses (r : Response) (s : State) : (reply r s).responses = s.responses ++ [r] := rfl

@[simp] theorem answer_core (k : RequestKind) (s : State) : (answer k s).core = s.core := rfl
@[simp] theorem answer_csLevel (k : RequestKind) (s : State) : (answer k s).csLevel = s.csLevel := rfl
@[simp] theorem answer_stimulus (k : RequestKind) (s : State) : (answer k s).stimulus = s.stimulus := rfl
@[simp] theorem answer_responses (k : RequestKind) (s : State) : (answer k s).responses = s.responses ++ [request Config.tables k s.core.buf] := rfl

@[simp] theorem giveNext_core (w : StimulusWord) (s : State) : (giveNext w s).core = s.core := rfl
@[simp] theorem giveNext_csLevel (w : StimulusWord) (s : State) : (giveNext w s).csLevel = s.csLevel := rfl
@[simp] theorem giveNext_stimulus (w : StimulusWord) (s : State) : (giveNext w s).stimulus = w :: s.stimulus := rfl
@[simp] theorem giveNext_responses (w : StimulusWord) (s : State) : (giveNext w s).responses = s.responses := rfl

@[simp] theorem load_core (p : List StimulusWord) (s : State) : (load p s).core = s.core := rfl
@[simp] theorem load_csLevel (p : List StimulusWord) (s : State) : (load p s).csLevel = s.csLevel := rfl
@[simp] theorem load_stimulus (p : List StimulusWord) (s : State) : (load p s).stimulus = s.stimulus ++ p := rfl
@[simp] theorem load_responses (p : List StimulusWord) (s : State) : (load p s).responses = s.responses := rfl

end Sys2Proof.Machine
end

