-- ==== Sys2Proof/Laws/Ops.lean ====
section
/-! SUPPORT. What the shared operations over the frame buffer and the sampler's registers can do, said once each. -/

namespace Sys2Proof.Machine

/-! ### The frame buffer: a read after a write -/

@[simp] theorem memRead_memWrite_same (b : FrameBuffer) (i : Fin 32) (w : Word) :
    memRead (memWrite b i w) i = w := by
  simp [memRead, memWrite]

theorem memRead_memWrite_other (b : FrameBuffer) {i j : Fin 32} (w : Word) (h : j ≠ i) :
    memRead (memWrite b i w) j = memRead b j := by
  have hv : i.val ≠ j.val := fun e => h (Fin.ext e.symm)
  simp [memRead, memWrite, hv]

/-- A later write to the same slot hides an earlier one. -/
@[simp] theorem memWrite_memWrite (b : FrameBuffer) (i : Fin 32) (v w : Word) :
    memWrite (memWrite b i v) i w = memWrite b i w := by
  simp [memWrite]

/-- Two buffers that read alike everywhere are equal. -/
theorem frameBuffer_ext {a b : FrameBuffer} (h : ∀ j, memRead a j = memRead b j) : a = b := by
  apply Vector.ext
  intro i hi
  exact h ⟨i, hi⟩

/-! ### SCLK_RISE -/

/-- A clock edge that is sampled (R82). -/
theorem coreSclkRise_sampled (d : Bit) (c : CoreState) (ha : c.csActive = true) (hp : c.pos.val ≤ 16) :
    coreSclkRise d c =
      { c with
        buf := memWrite c.buf c.cursor (memRead c.buf c.cursor ||| (d.setWidth 17 <<< (16 - c.pos.val)))
        pos := ⟨c.pos.val + 1, by omega⟩ } := by
  simp [coreSclkRise, ha, hp]

/-- A clock edge that is ignored: sampling disabled, or the word full (R82). -/
theorem coreSclkRise_ignored (d : Bit) (c : CoreState) (h : c.csActive = false ∨ c.pos = 17) :
    coreSclkRise d c = c := by
  rcases h with h | h <;> simp [coreSclkRise, h]

/-- Every clock edge is one of the two. -/
theorem sclkRise_sampled_or_ignored (c : CoreState) :
    (c.csActive = true ∧ c.pos.val ≤ 16) ∨ c.csActive = false ∨ c.pos = 17 := by
  rcases Bool.eq_false_or_eq_true c.csActive with h | h
  · by_cases hp : c.pos.val ≤ 16
    · exact .inl ⟨h, hp⟩
    · exact .inr (.inr (Fin.ext (by have := c.pos.isLt; change c.pos.val = 17; omega)))
  · exact .inr (.inl h)

@[simp] theorem coreSclkRise_cursor (d : Bit) (c : CoreState) : (coreSclkRise d c).cursor = c.cursor := by
  unfold coreSclkRise; split <;> rfl

@[simp] theorem coreSclkRise_csActive (d : Bit) (c : CoreState) : (coreSclkRise d c).csActive = c.csActive := by
  unfold coreSclkRise; split <;> rfl

/-- A clock edge leaves every slot but the one at the cursor alone (R88). -/
theorem memRead_coreSclkRise_other (d : Bit) (c : CoreState) {j : Fin 32} (h : j ≠ c.cursor) :
    memRead (coreSclkRise d c).buf j = memRead c.buf j := by
  unfold coreSclkRise
  split
  · exact memRead_memWrite_other _ _ h
  · rfl

/-! ### The clock edges of one transaction -/

/-- What a run of edges ORs into the word, from position `p` on (R45, R82). -/
def sampledFrom (p : Nat) : List Bit → Word
  | [] => 0
  | d :: ds => (d.setWidth 17 <<< (16 - p)) ||| sampledFrom (p + 1) ds

/-- `sampleBits` touches the hardware's state alone. -/
theorem sampleBits_eq (bits : List Bit) (s : State) :
    sampleBits bits s = { s with core := bits.foldl (fun c d => coreSclkRise d c) s.core } := by
  induction bits generalizing s with
  | nil => rfl
  | cons d ds ih => exact ih (sclkRise d s)

@[simp] theorem sampleBits_nil (s : State) : sampleBits [] s = s := rfl

@[simp] theorem sampleBits_cons (d : Bit) (ds : List Bit) (s : State) :
    sampleBits (d :: ds) s = sampleBits ds (sclkRise d s) := rfl

/-- Edges that all find room: they are ORed in below the position, which advances by their number. -/
theorem foldl_coreSclkRise (bits : List Bit) (c : CoreState) (ha : c.csActive = true)
    (hp : c.pos.val + bits.length ≤ 17) :
    bits.foldl (fun c d => coreSclkRise d c) c =
      { c with
        buf := memWrite c.buf c.cursor (memRead c.buf c.cursor ||| sampledFrom c.pos.val bits)
        pos := ⟨c.pos.val + bits.length, by omega⟩ } := by
  induction bits generalizing c with
  | nil =>
    have hb : memWrite c.buf c.cursor (memRead c.buf c.cursor) = c.buf := by
      simp [memWrite, memRead]
    simp [sampledFrom, hb]
  | cons d ds ih =>
    simp only [List.length_cons] at hp
    have hv : (coreSclkRise d c).pos.val = c.pos.val + 1 := by
      rw [coreSclkRise_sampled d c ha (by omega)]
    have hw : (coreSclkRise d c).buf =
        memWrite c.buf c.cursor (memRead c.buf c.cursor ||| (d.setWidth 17 <<< (16 - c.pos.val))) := by
      rw [coreSclkRise_sampled d c ha (by omega)]
    have hrest := ih (coreSclkRise d c) (by simp [ha]) (by omega)
    simp only [hv, hw, coreSclkRise_cursor, coreSclkRise_csActive] at hrest
    refine hrest.trans ?_
    simp [sampledFrom, BitVec.or_assoc, Nat.add_assoc, Nat.add_comm 1]

/-- Edges that all find the word full or the clock disabled (R86, R89). -/
theorem foldl_coreSclkRise_ignored (bits : List Bit) (c : CoreState) (h : c.csActive = false ∨ c.pos = 17) :
    bits.foldl (fun c d => coreSclkRise d c) c = c := by
  induction bits with
  | nil => rfl
  | cons d ds ih => rw [List.foldl_cons, coreSclkRise_ignored d c h, ih]

/-! ### Taking the next operation -/

theorem fetch_none {s : State} : fetch s = none ↔ s.stimulus = [] := by
  unfold fetch; split <;> simp_all

theorem fetch_some {s t : State} {w : StimulusWord} :
    fetch s = some (w, t) ↔ ∃ rest, s.stimulus = w :: rest ∧ t = { s with stimulus := rest } := by
  unfold fetch
  split
  next h => simp [h]
  next w' rest h =>
    simp only [h, Option.some.injEq, Prod.mk.injEq, List.cons.injEq]
    constructor
    · rintro ⟨rfl, rfl⟩; exact ⟨rest, ⟨rfl, rfl⟩, rfl⟩
    · rintro ⟨_, ⟨rfl, rfl⟩, rfl⟩; exact ⟨rfl, rfl⟩

end Sys2Proof.Machine
end

