-- ==== Sys2Proof/Laws/PerInstr.lean ====
section
/-! SUPPORT. Statements made per instruction: one lemma per constructor of Instr. -/

namespace Sys2Proof.Laws

/-- The reserved operation codes (R71). -/
def reservedCodes : List (BitVec 4) := [0b0101#4, 0b0110#4, 0b0111#4, 0b1101#4, 0b1110#4, 0b1111#4]

/-- The item is one of the reserved codes. -/
def isReservedItem : StimulusWord → Bool
  | .op4 code => reservedCodes.contains code
  | .busWord _ => false

/-- An instruction is ill formed exactly when its encoding is a reserved code (R70, R71). -/
def ReservedEncoding.Statement (i : Instr) : Prop := i.wellFormed = !isReservedItem (encode i)

/-- Every value of one bit. -/
theorem bit_cases (d : Bit) : d = 0#1 ∨ d = 1#1 := by
  have h := d.isLt
  rcases (by omega : d.toNat = 0 ∨ d.toNat = 1) with h | h
  · exact .inl (BitVec.eq_of_toNat_eq h)
  · exact .inr (BitVec.eq_of_toNat_eq h)

theorem ReservedEncoding.csf : ReservedEncoding.Statement .csf := rfl

theorem ReservedEncoding.csr : ReservedEncoding.Statement .csr := rfl

theorem ReservedEncoding.clk (d : Bit) : ReservedEncoding.Statement (.clk d) := by
  rcases bit_cases d with rfl | rfl <;> rfl

theorem ReservedEncoding.rst : ReservedEncoding.Statement .rst := rfl

theorem ReservedEncoding.getv : ReservedEncoding.Statement .getv := rfl

theorem ReservedEncoding.geti : ReservedEncoding.Statement .geti := rfl

theorem ReservedEncoding.getp : ReservedEncoding.Statement .getp := rfl

theorem ReservedEncoding.gete : ReservedEncoding.Statement .gete := rfl

theorem ReservedEncoding.dump : ReservedEncoding.Statement .dump := rfl

theorem ReservedEncoding.reservedOp0101 : ReservedEncoding.Statement .reservedOp0101 := rfl

theorem ReservedEncoding.reservedOp011x (x : Bit) : ReservedEncoding.Statement (.reservedOp011x x) := by
  rcases bit_cases x with rfl | rfl <;> rfl

theorem ReservedEncoding.reservedOp1101 : ReservedEncoding.Statement .reservedOp1101 := rfl

theorem ReservedEncoding.reservedOp111x (x : Bit) : ReservedEncoding.Statement (.reservedOp111x x) := by
  rcases bit_cases x with rfl | rfl <;> rfl

theorem ReservedEncoding.writeMemory (addr : BitVec 6) (data : Byte) : ReservedEncoding.Statement (.writeMemory addr data) := rfl

theorem ReservedEncoding.ignoredCmd0 (addr : BitVec 6) (data : Byte) : ReservedEncoding.Statement (.ignoredCmd0 addr data) := rfl

theorem ReservedEncoding.ignoredCmd1 (addr : BitVec 6) (data : Byte) : ReservedEncoding.Statement (.ignoredCmd1 addr data) := rfl

theorem ReservedEncoding.ignoredCmd2 (addr : BitVec 6) (data : Byte) : ReservedEncoding.Statement (.ignoredCmd2 addr data) := rfl

theorem ReservedEncoding.ignoredCmd3 (addr : BitVec 6) (data : Byte) : ReservedEncoding.Statement (.ignoredCmd3 addr data) := rfl

theorem ReservedEncoding.ignoredCmd4 (addr : BitVec 6) (data : Byte) : ReservedEncoding.Statement (.ignoredCmd4 addr data) := rfl

theorem ReservedEncoding.ignoredCmd6 (addr : BitVec 6) (data : Byte) : ReservedEncoding.Statement (.ignoredCmd6 addr data) := rfl

theorem ReservedEncoding.ignoredCmd7 (addr : BitVec 6) (data : Byte) : ReservedEncoding.Statement (.ignoredCmd7 addr data) := rfl

end Sys2Proof.Laws
end

