-- ==== Sys2Proof/Laws/Scan.lean ====
section
/-! SUPPORT. What one turn of EXTRACT's loop can do, and what a request answers. -/

namespace Sys2Proof.Machine

/-! ### One examined word -/

@[simp] theorem isWrite_iff (w : Word) : isWrite w = true ↔ cmdOf w = 5#3 := by
  simp [isWrite, cmdWrite]

/-- A word with another command is skipped (R96). -/
theorem examine_otherCommand {st : Scan} {w : Word} (h : cmdOf w ≠ 5#3) : st.examine w = .goOn st := by
  simp [Scan.examine, isWrite, cmdWrite, h]

/-- Before the start, a packet with another address than 0 is skipped (R97). -/
theorem examine_beforeStart {st : Scan} {w : Word} (hs : st.started = false) (ha : addrOf w ≠ 0#6) :
    st.examine w = .goOn st := by
  unfold Scan.examine
  split
  · rfl
  · simp [hs, ha]

/-- A packet that counts: the scan has started, or it starts here (R97). -/
theorem examine_counts {st : Scan} {w : Word} (hw : cmdOf w = 5#3) (hs : st.started = true ∨ addrOf w = 0#6) :
    st.examine w =
      if (addrOf w).toNat ≠ st.expected then .done .notFound
      else if addrOf w = 30#6 then .done (.found (st.accept w).slot)
      else .goOn (st.accept w) := by
  have h1 : isWrite w = true := (isWrite_iff w).2 hw
  have h2 : ¬ (st.started = false ∧ addrOf w ≠ 0#6) := by rcases hs with h | h <;> simp [h]
  simp [Scan.examine, h1, h2]

@[simp] theorem run_nil (st : Scan) : st.run [] = .notFound := rfl

theorem run_cons_goOn {st st' : Scan} {w : Word} {ws : List Word} (h : st.examine w = .goOn st') :
    st.run (w :: ws) = st'.run ws := by
  simp [Scan.run, h]

theorem run_cons_done {st : Scan} {w : Word} {ws : List Word} {r : Extraction} (h : st.examine w = .done r) :
    st.run (w :: ws) = r := by
  simp [Scan.run, h]

theorem examined_cons_goOn {st st' : Scan} {w : Word} {ws : List Word} (h : st.examine w = .goOn st') :
    st.examined (w :: ws) = st'.examined ws + 1 := by
  simp [Scan.examined, h]

theorem examined_cons_done {st : Scan} {w : Word} {ws : List Word} {r : Extraction} (h : st.examine w = .done r) :
    st.examined (w :: ws) = 1 := by
  simp [Scan.examined, h]

@[simp] theorem accept_expected (st : Scan) (w : Word) : (st.accept w).expected = st.expected + 2 := rfl
@[simp] theorem accept_started (st : Scan) (w : Word) : (st.accept w).started = true := rfl
@[simp] theorem accept_k (st : Scan) (w : Word) : (st.accept w).k = st.k + 1 := rfl
@[simp] theorem accept_slot (st : Scan) (w : Word) :
    (st.accept w).slot = st.slot.setIfInBounds st.k (maskedData w) := rfl

/-! ### Requests -/

/-- A request whose scan succeeds (R112). -/
theorem request_found {t : SegTables} {k : RequestKind} {snap : FrameBuffer} {slot : DigitSlots}
    (h : extract snap = .found slot) : request t k snap = foundResponse t slot k := by
  simp [request, h]

/-- A request whose scan fails (R112). -/
theorem request_notFound {t : SegTables} {k : RequestKind} {snap : FrameBuffer}
    (h : extract snap = .notFound) : request t k snap = failResponse k := by
  simp [request, h]

end Sys2Proof.Machine
end

