-- ==== Sys2Proof/Laws/Step.lean ====
section
/-! SUPPORT. What exec, a step and a run can do, said once each. -/

namespace Sys2Proof.Machine

/-! ### The meaning of each instruction, as the dispatch gives it -/

theorem exec_csf (s : State) : exec .csf s = .next (csFall s) := rfl
theorem exec_csr (s : State) : exec .csr s = .next (csRise s) := rfl
theorem exec_clk (d : Bit) (s : State) : exec (.clk d) s = .next (sclkRise d s) := rfl
theorem exec_rst (s : State) : exec .rst s = .next (resetCore s) := rfl
theorem exec_getv (s : State) : exec .getv s = .next (answer .voltage s) := rfl
theorem exec_geti (s : State) : exec .geti s = .next (answer .current s) := rfl
theorem exec_getp (s : State) : exec .getp s = .next (answer .power s) := rfl
theorem exec_gete (s : State) : exec .gete s = .next (answer .energy s) := rfl
theorem exec_dump (s : State) : exec .dump s = .next (answer .dump s) := rfl
theorem exec_writeMemory (a : BitVec 6) (d : Byte) (s : State) : exec (.writeMemory a d) s = .next (transactWord (packWord 5 a d) s) := rfl
theorem exec_ignoredCmd0 (a : BitVec 6) (d : Byte) (s : State) : exec (.ignoredCmd0 a d) s = .next (transactWord (packWord 0 a d) s) := rfl
theorem exec_ignoredCmd1 (a : BitVec 6) (d : Byte) (s : State) : exec (.ignoredCmd1 a d) s = .next (transactWord (packWord 1 a d) s) := rfl
theorem exec_ignoredCmd2 (a : BitVec 6) (d : Byte) (s : State) : exec (.ignoredCmd2 a d) s = .next (transactWord (packWord 2 a d) s) := rfl
theorem exec_ignoredCmd3 (a : BitVec 6) (d : Byte) (s : State) : exec (.ignoredCmd3 a d) s = .next (transactWord (packWord 3 a d) s) := rfl
theorem exec_ignoredCmd4 (a : BitVec 6) (d : Byte) (s : State) : exec (.ignoredCmd4 a d) s = .next (transactWord (packWord 4 a d) s) := rfl
theorem exec_ignoredCmd6 (a : BitVec 6) (d : Byte) (s : State) : exec (.ignoredCmd6 a d) s = .next (transactWord (packWord 6 a d) s) := rfl
theorem exec_ignoredCmd7 (a : BitVec 6) (d : Byte) (s : State) : exec (.ignoredCmd7 a d) s = .next (transactWord (packWord 7 a d) s) := rfl

/-- Everything an instruction that answers a next state can do. -/
theorem exec_cases {i : Instr} {s t : State} (h : exec i s = .next t) :
    (i = .csf ∧ t = csFall s) ∨ (i = .csr ∧ t = csRise s) ∨ (∃ d, i = .clk d ∧ t = sclkRise d s) ∨
    (i = .rst ∧ t = resetCore s) ∨ (∃ k, requestKind i = some k ∧ t = answer k s) ∨
    (∃ w, carriedWord i = some w ∧ t = transactWord w s) := by
  cases i with
  | csf => cases h; exact .inl ⟨rfl, rfl⟩
  | csr => cases h; exact .inr (.inl ⟨rfl, rfl⟩)
  | clk d => cases h; exact .inr (.inr (.inl ⟨d, rfl, rfl⟩))
  | rst => cases h; exact .inr (.inr (.inr (.inl ⟨rfl, rfl⟩)))
  | getv => cases h; exact .inr (.inr (.inr (.inr (.inl ⟨.voltage, rfl, rfl⟩))))
  | geti => cases h; exact .inr (.inr (.inr (.inr (.inl ⟨.current, rfl, rfl⟩))))
  | getp => cases h; exact .inr (.inr (.inr (.inr (.inl ⟨.power, rfl, rfl⟩))))
  | gete => cases h; exact .inr (.inr (.inr (.inr (.inl ⟨.energy, rfl, rfl⟩))))
  | dump => cases h; exact .inr (.inr (.inr (.inr (.inl ⟨.dump, rfl, rfl⟩))))
  | reservedOp0101 => cases h
  | reservedOp011x x => cases h
  | reservedOp1101 => cases h
  | reservedOp111x x => cases h
  | writeMemory a d =>
    exact .inr (.inr (.inr (.inr (.inr ⟨_, rfl, (Host.Outcome.next.inj ((exec_writeMemory a d s).symm.trans h)).symm⟩))))
  | ignoredCmd0 a d =>
    exact .inr (.inr (.inr (.inr (.inr ⟨_, rfl, (Host.Outcome.next.inj ((exec_ignoredCmd0 a d s).symm.trans h)).symm⟩))))
  | ignoredCmd1 a d =>
    exact .inr (.inr (.inr (.inr (.inr ⟨_, rfl, (Host.Outcome.next.inj ((exec_ignoredCmd1 a d s).symm.trans h)).symm⟩))))
  | ignoredCmd2 a d =>
    exact .inr (.inr (.inr (.inr (.inr ⟨_, rfl, (Host.Outcome.next.inj ((exec_ignoredCmd2 a d s).symm.trans h)).symm⟩))))
  | ignoredCmd3 a d =>
    exact .inr (.inr (.inr (.inr (.inr ⟨_, rfl, (Host.Outcome.next.inj ((exec_ignoredCmd3 a d s).symm.trans h)).symm⟩))))
  | ignoredCmd4 a d =>
    exact .inr (.inr (.inr (.inr (.inr ⟨_, rfl, (Host.Outcome.next.inj ((exec_ignoredCmd4 a d s).symm.trans h)).symm⟩))))
  | ignoredCmd6 a d =>
    exact .inr (.inr (.inr (.inr (.inr ⟨_, rfl, (Host.Outcome.next.inj ((exec_ignoredCmd6 a d s).symm.trans h)).symm⟩))))
  | ignoredCmd7 a d =>
    exact .inr (.inr (.inr (.inr (.inr ⟨_, rfl, (Host.Outcome.next.inj ((exec_ignoredCmd7 a d s).symm.trans h)).symm⟩))))

/-- A host request answers and goes on (R112). -/
theorem exec_request {i : Instr} {k : RequestKind} (h : requestKind i = some k) (s : State) :
    exec i s = .next (answer k s) := by
  cases i <;> cases h <;> rfl

/-- A bus word runs as its transaction. -/
theorem exec_carriedWord {i : Instr} {w : Word} (h : carriedWord i = some w) (s : State) :
    exec i s = .next (transactWord w s) := by
  cases i <;> first | (cases h; done) | (obtain rfl := Option.some.inj h; rfl)

/-- A well-formed instruction answers a next state in every state (R142, R143). -/
theorem exec_next_of_wellFormed {i : Instr} (h : i.wellFormed = true) (s : State) : ∃ t, exec i s = .next t := by
  cases i <;> first | exact ⟨_, rfl⟩ | cases h

/-- Everything a step that answers a next state can do: nothing was given, or the next operation ran. -/
theorem step_cases {s t : State} (h : step s = .next t) :
    (s.stimulus = [] ∧ t = s) ∨
    ∃ w rest, s.stimulus = w :: rest ∧ exec (decode w) { s with stimulus := rest } = .next t := by
  unfold step at h
  split at h
  next hf => cases h; exact .inl ⟨fetch_none.1 hf, rfl⟩
  next w u hf =>
    obtain ⟨rest, hs, rfl⟩ := fetch_some.1 hf
    exact .inr ⟨w, rest, hs, h⟩

/-! ### Transactions still to begin, and ring slots in use -/

@[simp] theorem transactionsIn_nil : transactionsIn [] = 0 := rfl

@[simp] theorem transactionsIn_cons (w : StimulusWord) (ws : List StimulusWord) :
    transactionsIn (w :: ws) = transactionsIn ws + if startsTransaction (decode w) then 1 else 0 := by
  simp [transactionsIn, List.countP_cons]

theorem slotInUse_iff (c : CoreState) (j : Fin 32) :
    c.slotInUse j = true ↔ memRead c.buf j ≠ 0#17 ∨ (c.csActive = true ∧ j = c.cursor) := by
  simp [CoreState.slotInUse]

/-- Slots in use are counted monotonically. -/
theorem slotsInUse_le {c d : CoreState} (h : ∀ j, c.slotInUse j = true → d.slotInUse j = true) :
    c.slotsInUse ≤ d.slotsInUse :=
  List.countP_mono_left fun j _ => h j

/-! ### Runs -/

@[simp] theorem runOps_nil (s : State) : runOps [] s = .next s := rfl

theorem runOps_cons {i : Instr} {s t : State} (h : exec i s = .next t) (is : List Instr) :
    runOps (i :: is) s = runOps is t := by
  simp [runOps, h]

/-- Runs compose. -/
theorem runOps_append {as : List Instr} {s t : State} (h : runOps as s = .next t) (bs : List Instr) :
    runOps (as ++ bs) s = runOps bs t := by
  induction as generalizing s with
  | nil => cases h; rfl
  | cons i is ih =>
    cases hi : exec i s with
    | next u =>
      rw [runOps_cons hi] at h
      rw [List.cons_append, runOps_cons hi]
      exact ih h
    | fault r => cases r
    | refused r => simp [runOps, hi] at h

/-- A run of clock edges is `sampleBits`. -/
theorem runOps_clk (bits : List Bit) (s : State) : runOps (bits.map .clk) s = .next (sampleBits bits s) := by
  induction bits generalizing s with
  | nil => rfl
  | cons d ds ih => exact ih (sclkRise d s)

end Sys2Proof.Machine
end

