-- ==== Sys2Proof/Tests/Slice0.lean ====
section
/-! SUPPORT. The model's own tests: ill-formed terms that the checks refuse, words written out from the spec's
encodings, the vectors of 95_test_vectors.md on single steps, and states that meet the statements' hypotheses. -/

namespace Sys2Proof.Tests

open Sys2Proof Sys2Proof.Machine Sys2Proof.Spec

/-! ### Helpers -/

/-- A frame buffer that holds the words from slot 0 on, and 0 elsewhere. -/
def bufOf (ws : List Word) : FrameBuffer :=
  ws.zipIdx.foldl (fun b p => b.setIfInBounds p.2 p.1) (Vector.replicate 32 0#17)

/-- The 16 packets of a complete sequence with the given bytes (R76, `seq`). -/
def seqWords (ds : List Byte) : List Word :=
  ds.zipIdx.map fun p => packWord 5 (BitVec.ofNat 6 (2 * p.2)) p.1

/-- A small state: no stimulus, no responses, the line as given. -/
def st (buf : FrameBuffer) (cursor : Fin 32) (pos : Fin 18) (active : Bool) : State where
  core := { buf, cursor, pos, csActive := active }
  csLevel := if active then .low else .high
  stimulus := []
  responses := []

/-- The outcome is a next state that passes the check. -/
def nextWith (o : Host.Outcome State Fault Refusal) (p : State → Bool) : Bool :=
  match o with
  | .next t => p t
  | .fault _ => false
  | .refused _ => false

/-- The bytes of V-D9 (`SEQ_A`). -/
def seqA : List Byte :=
  [0x75, 0x53, 0x05, 0x02, 0x05, 0x75, 0x53, 0x17, 0x7E, 0xCC, 0xDB, 0xFA, 0x7E, 0x0E, 0xFE, 0xDE]

def bufA : FrameBuffer := bufOf (seqWords seqA)

/-- The digit slots of `SEQ_A`: its bytes have bits 7 and 3 clear in slots 0 to 7, so the mask leaves them. -/
def slotsA : DigitSlots :=
  #v[0x75, 0x53, 0x05, 0x02, 0x05, 0x75, 0x53, 0x17, 0x7E, 0xCC, 0xDB, 0xFA, 0x7E, 0x0E, 0xFE, 0xDE]

/-! ### WellFormed: an ill-formed term for each check -/

theorem test_wf_reserved : Instr.reservedOp0101.wellFormed = false ∧ (Instr.reservedOp011x 1).wellFormed = false ∧
    Instr.reservedOp1101.wellFormed = false ∧ (Instr.reservedOp111x 0).wellFormed = false ∧
    Instr.csf.wellFormed = true ∧ (Instr.ignoredCmd7 63 255).wellFormed = true := by decide
theorem test_wf_line_op : (SourceLine.op (.writeMemory 0 0)).wellFormed = false ∧
    (SourceLine.op .reservedOp1101).wellFormed = false ∧ (SourceLine.op (.clk 1)).wellFormed = true := by decide
theorem test_wf_line_bits : (SourceLine.bits [0, 2]).wellFormed = false ∧ (SourceLine.xact [2]).wellFormed = false ∧
    (SourceLine.xact [0, 1]).wellFormed = true := by decide
theorem test_wf_line_word : (SourceLine.word 0x20000).wellFormed = false ∧
    (SourceLine.word 0x1FFFF).wellFormed = true := by decide
theorem test_wf_line_pkt : (SourceLine.pkt 8 0 0).wellFormed = false ∧ (SourceLine.pkt 5 64 0).wellFormed = false ∧
    (SourceLine.pkt 5 0 256).wellFormed = false ∧ (SourceLine.pkt 7 63 255).wellFormed = true := by decide
theorem test_wf_line_seq : (SourceLine.seq (List.replicate 15 0)).wellFormed = false ∧
    (SourceLine.seq (List.replicate 16 256)).wellFormed = false ∧
    (SourceLine.seq (List.replicate 16 255)).wellFormed = true := by decide
theorem test_wf_tables_vc_injective :
    ({ Config.testTables with vc := Config.testTables.vc.set 9 0x05#8 }).vcInjective = false ∧
    ({ Config.testTables with vc := Config.testTables.vc.set 9 0x05#8 }).wellFormed = false := by decide
theorem test_wf_tables_pe_injective :
    ({ Config.testTables with pe := Config.testTables.pe.set 9 0x3F#7 }).peInjective = false ∧
    ({ Config.testTables with pe := Config.testTables.pe.set 9 0x3F#7 }).wellFormed = false := by decide
theorem test_wf_tables_vc_bits :
    ({ Config.testTables with vc := Config.testTables.vc.set 4 0x08#8 }).vcBitsClear = false ∧
    ({ Config.testTables with vc := Config.testTables.vc.set 4 0x80#8 }).wellFormed = false := by decide
theorem test_wf_tables_vc_pinned :
    ({ Config.testTables with vc := Config.testTables.vc.set 0 0x03#8 }).vcPinned = false ∧
    ({ Config.testTables with vc := Config.testTables.vc.set 3 0x03#8 }).wellFormed = false := by decide

/-! ### Decoding: words written out from the encodings (R60, R62, R70) -/

theorem test_decode_bus_events : decode (.op4 0b0000#4) = .csf ∧ decode (.op4 0b0001#4) = .csr ∧
    decode (.op4 0b0010#4) = .clk 0 ∧ decode (.op4 0b0011#4) = .clk 1 ∧ decode (.op4 0b0100#4) = .rst := by decide
theorem test_decode_requests : decode (.op4 0b1000#4) = .getv ∧ decode (.op4 0b1001#4) = .geti ∧
    decode (.op4 0b1010#4) = .getp ∧ decode (.op4 0b1011#4) = .gete ∧ decode (.op4 0b1100#4) = .dump := by decide
theorem test_decode_reserved : decode (.op4 0b0101#4) = .reservedOp0101 ∧
    decode (.op4 0b0110#4) = .reservedOp011x 0 ∧ decode (.op4 0b0111#4) = .reservedOp011x 1 ∧
    decode (.op4 0b1101#4) = .reservedOp1101 ∧ decode (.op4 0b1110#4) = .reservedOp111x 0 ∧
    decode (.op4 0b1111#4) = .reservedOp111x 1 := by decide
/-- R62: `101 000000 01110101`; V-E3's `pkt 5,30,0xDE` is `101 011110 11011110`. -/
theorem test_decode_write_memory : decode (.busWord 0b10100000001110101#17) = .writeMemory 0 0x75 ∧
    decode (.busWord 0b10101111011011110#17) = .writeMemory 30 0xDE ∧
    decode (.busWord 0x15EDE#17) = .writeMemory 30 0xDE := by decide
theorem test_decode_ignored : decode (.busWord 0b00011111100000001#17) = .ignoredCmd0 63 1 ∧
    decode (.busWord 0b00100000110000000#17) = .ignoredCmd1 1 0x80 ∧
    decode (.busWord 0b01010000001111111#17) = .ignoredCmd2 32 0x7F ∧
    decode (.busWord 0b01101111011111110#17) = .ignoredCmd3 30 0xFE ∧
    decode (.busWord 0x10000#17) = .ignoredCmd4 0 0 ∧
    decode (.busWord 0b11000111100001111#17) = .ignoredCmd6 15 15 ∧
    decode (.busWord 0x1FFFF#17) = .ignoredCmd7 63 255 := by decide
/-- The table's rows by their numbers, and bits that belong to no row. -/
theorem test_decode_table_words : decodeTableWord 8 0xC = some .dump ∧
    decodeTableWord 24 0x14000 = some (.writeMemory 0 0) ∧ decodeTableWord 24 0 = some (.ignoredCmd0 0 0) ∧
    decodeTableWord 8 0x10 = none ∧ decodeTableWord 24 0x20000 = none := by decide
/-- The encodings of 95 §7's table for `pkt 5,2,0x53` and `pkt 4,0,0x00`. -/
theorem test_encode_pkt :
    (encodeProgram [.pkt 5 2 0x53]).bind hexOfProgram = some "0323222232232322331".toList ∧
    (encodeProgram [.pkt 4 0 0]).bind hexOfProgram = some "0322222222222222221".toList := by decide +kernel
/-- Program text (R75): P7's first lines and its encoding. -/
theorem test_parse_text :
    parseProgram "rst\nclk 1 ; ignored\n\ncsr\npkt 5, 2, 0x53".toList =
      .ok [.op .rst, .op (.clk 1), .op .csr, .pkt 5 2 0x53] ∧
    parseProgram "pkt 5, 64, 0".toList = .error (.illFormed (.pkt 5 64 0)) ∧
    programOfHex "43C".toList = .ok [.op4 4#4, .op4 3#4, .op4 12#4] := by decide +kernel

/-! ### Single steps: the bit sampler (95 §3) -/

/-- V-S1. -/
theorem test_csf : nextWith (exec .csf (st ((bufOf []).set 3 0x15E2A#17) 3 17 false))
    (fun t => decide (t.core = { buf := bufOf [], cursor := 3, pos := 0, csActive := true } ∧ t.csLevel = .low)) = true := by
  decide +kernel
/-- V-S2's third edge: `buf[0]` becomes 0x14000. -/
theorem test_clk_samples : nextWith (exec (.clk 1) (st (bufOf [0x10000#17]) 0 2 true))
    (fun t => decide (t.core = { buf := bufOf [0x14000#17], cursor := 0, pos := 3, csActive := true })) = true := by
  decide +kernel
/-- V-S6: the 18th edge is ignored. -/
theorem test_clk_full : nextWith (exec (.clk 1) (st (bufOf [0x14074#17]) 0 17 true))
    (fun t => decide (t.core = (st (bufOf [0x14074#17]) 0 17 true).core)) = true := by decide +kernel
/-- V-S8. -/
theorem test_csr_wraps : nextWith (exec .csr (st (bufOf [5#17]) 31 4 true))
    (fun t => decide (t.core = { buf := bufOf [5#17], cursor := 0, pos := 4, csActive := false })) = true := by
  decide +kernel
/-- V-R1. -/
theorem test_rst : nextWith (exec .rst (st (bufOf [5#17]) 31 4 true))
    (fun t => decide (t.core = CoreState.reset ∧ t.csLevel = .low)) = true := by decide +kernel
/-- V-S3: a whole `pkt 5,0,0x75`. -/
theorem test_write_memory : nextWith (exec (.writeMemory 0 0x75) (st (bufOf []) 0 0 false))
    (fun t => decide (t.core = { buf := bufOf [0x14075#17], cursor := 1, pos := 17, csActive := false })) = true := by
  decide +kernel
/-- V-S12: 17 ones. -/
theorem test_ignored_cmd7 : nextWith (exec (.ignoredCmd7 63 255) (st (bufOf []) 0 0 false))
    (fun t => decide (t.core = { buf := bufOf [0x1FFFF#17], cursor := 1, pos := 17, csActive := false })) = true := by
  decide +kernel
theorem test_reserved : exec (.reservedOp111x 1) (st (bufOf []) 0 0 false) = .refused (.reservedOperation 15#4) := rfl

/-! ### The scan (95 §4) -/

/-- V-X1. -/
theorem test_extract_found : extract (bufOf (seqWords (List.replicate 16 0xFF))) =
    .found #v[0x77, 0x77, 0x77, 0x77, 0x77, 0x77, 0x77, 0x77, 0xFF, 0xFF, 0xFF, 0xFF, 0xFF, 0xFF, 0xFF, 0xFF] ∧
    Scan.start.examined (bufOf (seqWords (List.replicate 16 0xFF))).toList = 16 := by decide +kernel
/-- V-X3: stops at index 2. -/
theorem test_extract_out_of_turn :
    extract (bufOf [packWord 5 0 0, packWord 5 2 0, packWord 5 6 0, packWord 5 8 0]) = .notFound ∧
    Scan.start.examined (bufOf [packWord 5 0 0, packWord 5 2 0, packWord 5 6 0, packWord 5 8 0]).toList = 3 := by
  decide +kernel
/-- V-X5: command-5 words before the start are skipped. -/
theorem test_extract_late_start :
    Scan.start.examined (bufOf (packWord 5 8 0 :: packWord 5 31 0 :: seqWords seqA)).toList = 18 ∧
    extract (bufOf (packWord 5 8 0 :: packWord 5 31 0 :: seqWords seqA)) = .found slotsA := by decide +kernel
/-- V-X8a and V-X8b: a run at 16..31 fits, one at 17..31 does not. -/
theorem test_extract_end : extract (bufOf (List.replicate 16 0 ++ seqWords seqA)) = .found slotsA ∧
    extract (bufOf (List.replicate 17 0 ++ seqWords seqA)) = .notFound := by decide +kernel

/-! ### The decoder (95 §5), with the hypothetical TEST_TABLES -/

/-- V-D9. -/
theorem test_getv : request Config.testTables .voltage bufA = ⟨0, 1205, 0, 0x4140CCCD#32, noSlots⟩ := by decide +kernel
theorem test_geti : request Config.testTables .current bufA = ⟨0, 123, 0, 0x3F9D70A4#32, noSlots⟩ := by decide +kernel
theorem test_getp : request Config.testTables .power bufA = ⟨0, 456, 1, 0x42366666#32, noSlots⟩ := by decide +kernel
theorem test_gete : request Config.testTables .energy bufA = ⟨0, 789, 0, 0x00000315#32, noSlots⟩ := by decide +kernel
theorem test_dump : request Config.testTables .dump bufA = ⟨0, 0, 0, 0, slotsA⟩ := by decide +kernel
/-- V-D3b and V-D4b: the flags. -/
theorem test_flags :
    request Config.testTables .power (bufOf (seqWords (seqA.set 10 0xDA))) = ⟨0, 456, 0, 0x43E40000#32, noSlots⟩ ∧
    request Config.testTables .energy (bufOf (seqWords (seqA.set 15 0xDF))) = ⟨0, 789, 1, 0x000C0A08#32, noSlots⟩ := by
  decide +kernel
/-- V-D5: 0x77 matches nothing and counts 0. -/
theorem test_unmatched : request Config.testTables .voltage
    (bufOf (seqWords ([0x77, 0x05, 0x53, 0x17] ++ seqA.drop 4))) = ⟨0, 23, 0, 0x3E6B851F#32, noSlots⟩ := by decide +kernel
/-- V-D7: the largest results. -/
theorem test_largest : rne32 9999 100 = 0x42C7FAE1#32 ∧ rne32 9999 10 = 0x4479F99A#32 ∧ rne32 1 100 = 0x3C23D70A#32 ∧
    rne32 1234 1 = 0x449A4000#32 := by decide +kernel
/-- V-D11: right after reset, on the hardware's own tables. -/
theorem test_fail : (answer .voltage (st (bufOf []) 0 0 false)).responses = [⟨1, 0, 0, 0xBF800000#32, noSlots⟩] ∧
    (answer .energy (st (bufOf []) 0 0 false)).responses = [⟨1, 0, 0, 0xFFFFFFFF#32, noSlots⟩] := by decide +kernel

/-! ### The step, as the host runs it -/

theorem test_step_first_op4 : nextWith (step (State.reset.withFetchWord 8 0x0)) (fun t => t.core.csActive) = true := by
  decide +kernel
theorem test_step_first_bus_word :
    nextWith (step (State.reset.withFetchWord 24 0x14000)) (fun t => decide (memRead t.core.buf 0 = 0x14000#17)) = true := by
  decide +kernel
theorem test_step_reserved : step (State.reset.withFetchWord 8 0x5) = .refused (.reservedOperation 5#4) := rfl

/-! ### Witnesses: states and operands that meet the statements' hypotheses -/

theorem witness_step : ({ State.reset with stimulus := [.op4 0#4, .op4 8#4] } : State).stimulus =
    .op4 0#4 :: [.op4 8#4] := rfl
theorem witness_idle : State.reset.stimulus = [] := rfl
theorem witness_reserved : (0b0101#4 ∈ [0b0101#4, 0b0110#4, 0b0111#4, 0b1101#4, 0b1110#4, 0b1111#4]) ∧
    (0b1111#4 ∈ [0b0101#4, 0b0110#4, 0b0111#4, 0b1101#4, 0b1110#4, 0b1111#4]) := by decide
/-- SclkRise: the first edge, the last edge, the edge after it, and an edge outside a transaction. -/
theorem witness_clk : ((st (bufOf []) 0 0 true).core.pos.val ≤ 16 ∧ (st (bufOf []) 0 0 true).core.csActive = true) ∧
    ((st (bufOf []) 0 16 true).core.pos.val ≤ 16 ∧ (st (bufOf []) 0 16 true).core.csActive = true) ∧
    (st (bufOf []) 0 17 true).core.pos = 17 ∧ (st (bufOf []) 0 3 false).core.csActive = false := by decide +kernel
theorem witness_bus_event_slots : (∀ i ∈ [Instr.csf, .clk 1, .getv], staysInSlot i) ∧
    exec .csr (st (bufOf []) 31 4 true) = .next (csRise (st (bufOf []) 31 4 true)) ∧ (0 : Fin 32) ≠ 31 := by
  refine ⟨?_, rfl, by decide⟩
  intro i hi
  simp only [List.mem_cons, List.not_mem_nil, or_false] at hi
  rcases hi with rfl | rfl | rfl
  · exact .inl rfl
  · exact .inr (.inl ⟨1, rfl⟩)
  · exact .inr (.inr rfl)
/-- Writers: a state that each kind of writer really changes. -/
theorem witness_writers :
    (csFall (st (bufOf [5#17]) 0 4 false)).core.buf[0] ≠ (st (bufOf [5#17]) 0 4 false).core.buf[0] ∧
    (csFall (st (bufOf [5#17]) 0 4 false)).core.pos ≠ (st (bufOf [5#17]) 0 4 false).core.pos ∧
    (csFall (st (bufOf [5#17]) 0 4 false)).core.csActive ≠ (st (bufOf [5#17]) 0 4 false).core.csActive ∧
    (csRise (st (bufOf [5#17]) 0 4 true)).core.cursor ≠ (st (bufOf [5#17]) 0 4 true).core.cursor := by decide +kernel
/-- Fields of a short capture: each bound of `m` with the word of address 30, and an address that is odd. -/
theorem witness_short : cmdOf 0x15EDE#17 = 5#3 ∧ (addrOf 0x15EDE#17).toNat = 30 ∧ (addrOf 0x15EDE#17).toNat % 2 = 0 ∧
    (addrOf 0x15EDE#17).toNat < 32 ∧ (0 < 17 ∧ 16 < 17) := by decide
/-- V-S14: the truncations of 0x15EDE. -/
theorem witness_short_values : truncated 0x15EDE#17 0 = 0#17 ∧ truncated 0x15EDE#17 1 = 0x10000#17 ∧
    truncated 0x15EDE#17 2 = 0x10000#17 ∧ truncated 0x15EDE#17 3 = 0x14000#17 ∧ truncated 0x15EDE#17 4 = 0x14000#17 ∧
    truncated 0x15EDE#17 5 = 0x15000#17 ∧ truncated 0x15EDE#17 7 = 0x15C00#17 ∧ truncated 0x15EDE#17 8 = 0x15E00#17 ∧
    truncated 0x15EDE#17 9 = 0x15E00#17 := by decide
theorem witness_extra_edges : 17 ≤ (List.replicate 17 (1#1)).length ∧ 17 ≤ (List.replicate 19 (1#1)).length := by decide
theorem witness_ring : (32 : Nat) < 33 ∧ (List.replicate 33 (5#17)).length ≤ 1 + 32 ∧
    (List.replicate 3 (5#17)).length ≤ 3 := by decide
/-- Invariants: a state in mid-transaction that has them, and its step. -/
theorem witness_inv : (st (bufOf [0x14000#17]) 0 3 true).core.Inv ∧
    step { st (bufOf [0x14000#17]) 0 3 true with stimulus := [.op4 3#4] } =
      .next (sclkRise 1 (st (bufOf [0x14000#17]) 0 3 true)) ∧
    ({ st (bufOf [0x14000#17]) 0 3 true with stimulus := [.op4 3#4] } : State).clockOnlyWhileLow := by
  refine ⟨⟨by decide, by decide, by decide +kernel, fun _ => by decide +kernel⟩, rfl, fun _ => rfl⟩
theorem witness_permitted : permitted .csf (st (bufOf []) 0 0 false) = true ∧
    permitted .csr (st (bufOf []) 0 0 true) = true ∧ (requestKind .getv).isSome = true := by decide +kernel
theorem witness_requests : Instr.getv ∈ [Instr.getv, .geti, .getp, .gete, .dump] ∧
    Instr.dump ∈ [Instr.getv, .geti, .getp, .gete, .dump] ∧
    (st bufA 3 5 true).core.buf = (st bufA 9 17 false).core.buf := by decide +kernel
theorem witness_not_found : extract (st (bufOf []) 0 0 false).core.buf = .notFound := by decide +kernel
/-- A found scan, with R113's and R114's example bytes. -/
theorem witness_found_examples :
    extract (st (bufOf (seqWords ([0x75, 0x05, 0x53, 0x17, 0x05, 0x75, 0x53, 0x17] ++ seqA.drop 8))) 0 0 false).core.buf =
      .found #v[0x75, 0x05, 0x53, 0x17, 0x05, 0x75, 0x53, 0x17, 0x7E, 0xCC, 0xDB, 0xFA, 0x7E, 0x0E, 0xFE, 0xDE] := by
  decide +kernel
/-- A found scan with DP set and KILO clear, and one with DP clear and KILO set. -/
theorem witness_found_flags : extract (st bufA 0 0 false).core.buf = .found slotsA ∧
    slotsA[10].getLsbD 0 = true ∧ slotsA[15].getLsbD 0 = false ∧
    extract (st (bufOf (seqWords ((seqA.set 10 0xDA).set 15 0xDF))) 0 0 false).core.buf =
      .found ((slotsA.set 10 0xDA).set 15 0xDF) ∧
    ((slotsA.set 10 0xDA).set 15 0xDF)[10].getLsbD 0 = false ∧
    ((slotsA.set 10 0xDA).set 15 0xDF)[15].getLsbD 0 = true := by decide +kernel
/-- Both sides of the scan's characterisation on V-X1's shape: the packets stand at indices 0..15. -/
theorem witness_run : ∃ idx : Fin 16 → Fin 32, StrictMono idx ∧ (∀ k : Fin 16, IsPacket bufA[(idx k).val] (2 * k.val)) ∧
    (∀ j : Fin 32, j < idx 0 → ¬ IsPacket bufA[j.val] 0) ∧
    (∀ j : Fin 32, idx 0 < j → j < idx 15 → cmdOf bufA[j.val] = 5#3 → ∃ k, idx k = j) ∧
    (∀ k : Fin 16, slotsA[k.val] = dataOf bufA[(idx k).val] &&& (if k.val < 8 then 0x77#8 else 0xFF#8)) := by
  refine ⟨Fin.castLE (by decide), fun a b h => h, ?_, ?_, ?_, ?_⟩
  · unfold IsPacket; decide +kernel
  · intro j h; exact absurd h (Nat.not_lt_zero _)
  · intro j _ h _; exact ⟨⟨j.val, Nat.lt_trans h (by decide)⟩, rfl⟩
  · decide +kernel
/-- V-X14's shape: two buffers with the same command-5 words in order. -/
theorem witness_transparent :
    (bufOf (seqWords seqA)).toList.filter (fun w => decide (cmdOf w = 5#3)) =
      (bufOf (packWord 6 16 0 :: seqWords seqA)).toList.filter (fun w => decide (cmdOf w = 5#3)) := by decide +kernel
theorem witness_out_of_turn : ({ Scan.start with started := true, expected := 2 } : Scan).started = true ∧
    cmdOf (packWord 5 6 0) = 5#3 ∧ (addrOf (packWord 5 6 0)).toNat ≠ 2 ∧
    (addrOf (packWord 5 0 0)).toNat ≠ 2 ∧ (addrOf (packWord 5 31 0)).toNat ≠ 2 := by decide
/-- V-X6. -/
theorem witness_no_restart :
    IsPacket (bufOf ([packWord 5 0 0, packWord 5 2 0, packWord 5 4 0] ++ seqWords seqA))[0] 0 ∧
    IsPacket (bufOf ([packWord 5 0 0, packWord 5 2 0, packWord 5 4 0] ++ seqWords seqA))[3] 0 ∧
    (∀ k : Fin 32, k < 3 →
      ¬ IsPacket (bufOf ([packWord 5 0 0, packWord 5 2 0, packWord 5 4 0] ++ seqWords seqA))[k.val] 30) := by
  unfold IsPacket; decide +kernel
/-- V-X8b's shape: the address-0 packet stands at index 17. -/
theorem witness_across_the_end : ∀ j : Fin 32, j.val ≤ 16 →
    ¬ IsPacket (bufOf (List.replicate 17 0 ++ seqWords seqA))[j.val] 0 := by unfold IsPacket; decide +kernel
/-- V-X13: words after the address-30 word differ. -/
theorem witness_after_the_stop : ∀ j : Fin 32, j.val < Scan.start.examined bufA.toList →
    bufA[j.val] = (bufOf (seqWords seqA ++ [packWord 5 0 0x12, packWord 5 7 0]))[j.val] := by decide +kernel
theorem witness_tables : Config.testTables.wellFormed = true := by decide
/-- Table patterns at both ends of the digit slots, with flag bits of either value. -/
def recoverSlots : DigitSlots := #v[0x75, 0x05, 0x40, 0x17, 0, 0, 0, 0, 0, 0, 0, 0, 0x0D, 0xB7, 0x9E, 0xCD]

theorem witness_recover :
    (recoverSlots[12] = Config.testTables.pe[1] ++ 1#1 ∧ recoverSlots[12 + 1] = Config.testTables.pe[2] ++ 1#1 ∧
      recoverSlots[12 + 2] = Config.testTables.pe[3] ++ 0#1 ∧ recoverSlots[12 + 3] = Config.testTables.pe[4] ++ 1#1) ∧
    (recoverSlots[0] = Config.testTables.vc[1] ∧ recoverSlots[1] = Config.testTables.vc[0] ∧
      recoverSlots[2] = Config.testTables.vc[9] ∧ recoverSlots[3] = Config.testTables.vc[3]) := by decide
theorem witness_decimal_point :
    accPE Config.testTables (slotsA.set 10 (slotsA[10] &&& 0xFE#8)) 8 = 456 := by decide +kernel
/-- V-D8 against V-D1: bits 7 and 3 added to the voltage bytes, bit 0 to slots 8, 9 and 11. -/
theorem witness_same_read_bits : SameReadBits bufA
    (bufOf (seqWords [0xFD, 0xDB, 0x0D, 0x8A, 0x05, 0x75, 0x53, 0x17, 0x7F, 0xCD, 0xDB, 0xFB, 0x7E, 0x0F, 0xFE, 0xDE])) := by
  unfold SameReadBits; decide +kernel
theorem witness_rounding : (0 : Nat) ≤ 9999 ∧ (9999 : Nat) ≤ 9999 ∧ 100 ∈ [1, 10, 100] ∧ 1 ∈ [1, 10, 100] ∧
    (0x3F800000#32).toNat < 0x7F800000 ∧ 0x3F800000#32 ≠ rne32 9999 100 := by decide +kernel
theorem witness_sentinels : requestKind .getv = some .voltage ∧ RequestKind.voltage ≠ .dump ∧
    requestKind .gete = some .energy ∧ RequestKind.energy ≠ .dump := by decide
theorem witness_fifteen_transactions : State.reset.core = CoreState.reset ∧
    (List.replicate 15 Instr.csf).countP startsTransaction ≤ 15 ∧
    runOps [Instr.csf] State.reset = .next (csFall State.reset) := ⟨rfl, by decide, rfl⟩
/-- R162 with `c = 5`: a ring of packets whose first address-0 word stands at index 11. -/
theorem witness_periodic : ∀ j : Fin 32,
    (bufOf ((List.range 32).map fun j => packWord 5 (BitVec.ofNat 6 (2 * ((j + 5) % 16))) 0x7E))[j.val] =
      packWord 5 (BitVec.ofNat 6 (2 * ((j.val + 5) % 16))) 0x7E := by decide +kernel
theorem witness_simultaneous : (st (bufOf []) 0 0 false).core.csActive = false ∧
    (st (bufOf []) 0 16 true).core.csActive = true ∧ (st (bufOf []) 0 16 true).core.pos.val ≤ 16 := by decide +kernel
theorem witness_held : (∀ i ∈ [Instr.clk 1, .getv], keepsChipSelect i) ∧ (st (bufOf []) 0 17 true).core.pos = 17 := by
  refine ⟨?_, rfl⟩
  intro i hi
  simp only [List.mem_cons, List.not_mem_nil, or_false] at hi
  rcases hi with rfl | rfl
  · exact .inl ⟨1, rfl⟩
  · exact .inr rfl
theorem witness_pkt : (7 : Nat) < 8 ∧ (63 : Nat) < 64 ∧ (255 : Nat) < 256 := by decide
/-- A program whose lines are all well formed, one of each kind, and one with a line that is not. -/
theorem witness_program :
    (∀ l ∈ [SourceLine.op .rst, .bits [0, 1], .word 0x1FFFF, .pkt 7 63 255, .xact [], .seq (List.replicate 16 255), .idle],
      l.wellFormed = true) ∧
    (∃ l ∈ [SourceLine.op .rst, .word 0x20000], l.wellFormed = false) := by decide
/-- The budget at its bound: 14 slots in use, one transaction to begin, and the step that begins it. -/
theorem witness_budget :
    ({ st (bufOf (List.replicate 14 0x14075#17)) 14 17 false with stimulus := [.op4 0#4] } : State).withinBudget 15 ∧
    step { st (bufOf (List.replicate 14 0x14075#17)) 14 17 false with stimulus := [.op4 0#4] } =
      .next (csFall (st (bufOf (List.replicate 14 0x14075#17)) 14 17 false)) := by
  refine ⟨?_, rfl⟩
  unfold State.withinBudget; decide +kernel

end Sys2Proof.Tests
end

/-! ## The step in terms of the stimulus (R8, R51) -/

namespace Sys2Proof.Machine

/-- The equation of `step` when an operation is given; `step_cases` is the inversion. -/
theorem step_of_stimulus_cons {s : State} {w : StimulusWord} {rest : List StimulusWord}
    (h : s.stimulus = w :: rest) : step s = exec (decode w) { s with stimulus := rest } := by
  have hfetch : fetch s = some (w, { s with stimulus := rest }) := fetch_some.2 ⟨rest, h, rfl⟩
  simp only [step, hfetch]

/-- Settles O6, by the equation of `step` for a non-empty stimulus. -/
theorem stepRunsTheDecodedOperation : Obligations.StepRunsTheDecodedOperation := by
  intro s w rest h
  exact step_of_stimulus_cons h

end Sys2Proof.Machine

/-! ## The hardware's state: reset values, writers, requests and invariants (R20 to R36) -/

namespace Sys2Proof.Machine

open Sys2Proof.Spec

/-! ### What a transaction leaves unchanged -/

@[simp] theorem sampleBits_core_cursor (bits : List Bit) (s : State) :
    (sampleBits bits s).core.cursor = s.core.cursor := by
  induction bits generalizing s with
  | nil => rfl
  | cons d ds ih => exact (ih (sclkRise d s)).trans (coreSclkRise_cursor d s.core)

/-- The clock edges of a transaction write no slot but the one at the cursor (R88). -/
theorem memRead_sampleBits_other (bits : List Bit) (s : State) {j : Fin 32} (h : j ≠ s.core.cursor) :
    memRead (sampleBits bits s).core.buf j = memRead s.core.buf j := by
  induction bits generalizing s with
  | nil => rfl
  | cons d ds ih =>
    have hcursor : j ≠ (sclkRise d s).core.cursor := by simpa using h
    exact (ih (sclkRise d s) hcursor).trans (memRead_coreSclkRise_other d s.core h)

/-- A whole transaction writes no slot but the one at the cursor (R88). -/
theorem memRead_transact_other (bits : List Bit) (s : State) {j : Fin 32} (h : j ≠ s.core.cursor) :
    memRead (transact bits s).core.buf j = memRead s.core.buf j :=
  (memRead_sampleBits_other bits (csFall s) h).trans (memRead_memWrite_other s.core.buf 0#17 h)

@[simp] theorem transactWord_core_csActive (w : Word) (s : State) :
    (transactWord w s).core.csActive = false := rfl

/-! ### Invariants of single steps -/

/-- What every operation keeps, every step keeps, if it does not speak of the stimulus. -/
theorem step_keeps {P : State → Prop} (hstimulus : ∀ s rest, P s → P { s with stimulus := rest })
    (hexec : ∀ {i s t}, exec i s = .next t → P s → P t) {s t : State} (h : step s = .next t) (hs : P s) : P t := by
  obtain ⟨-, rfl⟩ | ⟨w, rest, -, hrun⟩ := step_cases h
  · exact hs
  · exact hexec hrun (hstimulus s rest hs)

/-- R36(a) and (b) hold by the types of the fields, so R36(c) is what there is to keep. -/
theorem inv_iff_unsampledBitsClear (c : CoreState) : c.Inv ↔ c.unsampledBitsClear where
  mp h := h.unsampled
  mpr h :=
    { cursor_le := Nat.le_of_lt_succ c.cursor.isLt
      pos_le := Nat.le_of_lt_succ c.pos.isLt
      words_lt := fun j => (memRead c.buf j).isLt
      unsampled := h }

/-- Outside a transaction R36(c) asks nothing. -/
theorem inv_of_not_csActive {c : CoreState} (h : c.csActive = false) : c.Inv :=
  (inv_iff_unsampledBitsClear c).2 fun ha => absurd ha (by simp [h])

/-- R36(c)'s mask picks the low `n` bits of a word: they are 0 when each of them is. -/
theorem and_lowMask_eq_zero_iff (w : Word) (n : Nat) :
    w.toNat &&& ((1 <<< n) - 1) = 0 ↔ ∀ i < n, w.getLsbD i = false := by
  rw [Nat.one_shiftLeft]
  constructor
  · intro h i hi
    have hbit := congrArg (Nat.testBit · i) h
    simpa [BitVec.testBit_toNat, hi] using hbit
  · intro h
    apply Nat.eq_of_testBit_eq
    intro i
    by_cases hi : i < n
    · simp [BitVec.testBit_toNat, h i hi]
    · simp [hi]

/-- CS_FALL clears the whole word at the cursor (R81), and with it every unsampled bit. -/
theorem coreCsFall_inv (c : CoreState) : (coreCsFall c).Inv :=
  (inv_iff_unsampledBitsClear _).2 fun _ => by simp

/-- A clock edge writes the bit just above those still unsampled (R82), or nothing. -/
theorem coreSclkRise_inv (d : Bit) {c : CoreState} (h : c.Inv) : (coreSclkRise d c).Inv := by
  obtain ⟨ha, hp⟩ | hignored := sclkRise_sampled_or_ignored c
  · rw [coreSclkRise_sampled d c ha hp, inv_iff_unsampledBitsClear]
    have hold := (and_lowMask_eq_zero_iff _ _).1 (h.unsampled ha)
    intro _
    rw [and_lowMask_eq_zero_iff]
    intro i hi
    have hbelow : i < 16 - c.pos.val := by simp only at hi; omega
    simp [hold i (by omega), hbelow]
  · rwa [coreSclkRise_ignored d c hignored]

theorem exec_inv {i : Instr} {s t : State} (h : exec i s = .next t) (hs : s.core.Inv) : t.core.Inv := by
  obtain ⟨-, rfl⟩ | ⟨-, rfl⟩ | ⟨d, -, rfl⟩ | ⟨-, rfl⟩ | ⟨k, -, rfl⟩ | ⟨w, -, rfl⟩ := exec_cases h
  · exact coreCsFall_inv s.core
  · exact inv_of_not_csActive (coreCsRise_csActive s.core)
  · exact coreSclkRise_inv d hs
  · exact inv_of_not_csActive (coreReset_csActive s.core)
  · exact hs
  · exact inv_of_not_csActive (transactWord_core_csActive w s)

/-- Settles O25: R36(c) by the cases of what an operation can do, (a) and (b) by the types. -/
theorem everyStepKeepsTheInvariants : Obligations.EveryStepKeepsTheInvariants := by
  intro s t hs h
  exact step_keeps (P := fun s => s.core.Inv) (fun _ _ hs => hs) exec_inv h hs

/-- Settles O26: no transaction runs after RESET. -/
theorem invariantsHoldAtReset : Obligations.InvariantsHoldAtReset := inv_of_not_csActive rfl

/-! ### The clock enable and the chip-select line (R24, R136, R137) -/

theorem clockOnlyWhileLow_of_not_csActive {s : State} (h : s.core.csActive = false) : s.clockOnlyWhileLow :=
  fun ha => absurd ha (by simp [h])

theorem exec_clockOnlyWhileLow {i : Instr} {s t : State} (h : exec i s = .next t) (hs : s.clockOnlyWhileLow) :
    t.clockOnlyWhileLow := by
  obtain ⟨-, rfl⟩ | ⟨-, rfl⟩ | ⟨d, -, rfl⟩ | ⟨-, rfl⟩ | ⟨k, -, rfl⟩ | ⟨w, -, rfl⟩ := exec_cases h
  · exact fun _ => csFall_csLevel s
  · exact clockOnlyWhileLow_of_not_csActive (coreCsRise_csActive s.core)
  · intro ha
    exact hs (by simpa using ha)
  · exact clockOnlyWhileLow_of_not_csActive (coreReset_csActive s.core)
  · exact hs
  · exact clockOnlyWhileLow_of_not_csActive (transactWord_core_csActive w s)

/-- Settles O27: an operation that leaves the clock enabled is a fall, or changes neither clock nor line. -/
theorem clockEnabledOnlyWhileChipSelectLow : Obligations.ClockEnabledOnlyWhileChipSelectLow :=
  ⟨clockOnlyWhileLow_of_not_csActive rfl,
    fun _ _ hs h => step_keeps (fun _ _ hs => hs) exec_clockOnlyWhileLow h hs⟩

/-! ### Which operations write which element (R30) -/

section Writers

variable {i : Instr} {s t : State}

theorem exec_buf_writers (h : exec i s = .next t) {j : Fin 32} (hne : memRead t.core.buf j ≠ memRead s.core.buf j) :
    i = .rst ∨ (j = s.core.cursor ∧ (i = .csf ∨ (∃ d, i = .clk d) ∨ (carriedWord i).isSome = true)) := by
  obtain ⟨rfl, rfl⟩ | ⟨rfl, rfl⟩ | ⟨d, rfl, rfl⟩ | ⟨rfl, rfl⟩ | ⟨k, -, rfl⟩ | ⟨w, hw, rfl⟩ := exec_cases h
  · have hj : j = s.core.cursor := by_contra fun hj => hne (memRead_memWrite_other s.core.buf 0#17 hj)
    exact .inr ⟨hj, .inl rfl⟩
  · exact absurd rfl hne
  · have hj : j = s.core.cursor := by_contra fun hj => hne (memRead_coreSclkRise_other d s.core hj)
    exact .inr ⟨hj, .inr (.inl ⟨d, rfl⟩)⟩
  · exact .inl rfl
  · exact absurd rfl hne
  · have hj : j = s.core.cursor := by_contra fun hj => hne (memRead_transact_other (serialBits w) s hj)
    exact .inr ⟨hj, .inr (.inr (by simp [hw]))⟩

theorem exec_cursor_writers (h : exec i s = .next t) (hne : t.core.cursor ≠ s.core.cursor) :
    i = .csr ∨ i = .rst ∨ (carriedWord i).isSome = true := by
  obtain ⟨-, rfl⟩ | ⟨rfl, -⟩ | ⟨d, -, rfl⟩ | ⟨rfl, -⟩ | ⟨k, -, rfl⟩ | ⟨w, hw, -⟩ := exec_cases h
  · exact absurd rfl hne
  · exact .inl rfl
  · exact absurd (coreSclkRise_cursor d s.core) hne
  · exact .inr (.inl rfl)
  · exact absurd rfl hne
  · exact .inr (.inr (by simp [hw]))

theorem exec_pos_writers (h : exec i s = .next t) (hne : t.core.pos ≠ s.core.pos) :
    i = .csf ∨ (∃ d, i = .clk d) ∨ i = .rst ∨ (carriedWord i).isSome = true := by
  obtain ⟨rfl, -⟩ | ⟨-, rfl⟩ | ⟨d, rfl, -⟩ | ⟨rfl, -⟩ | ⟨k, -, rfl⟩ | ⟨w, hw, -⟩ := exec_cases h
  · exact .inl rfl
  · exact absurd rfl hne
  · exact .inr (.inl ⟨d, rfl⟩)
  · exact .inr (.inr (.inl rfl))
  · exact absurd rfl hne
  · exact .inr (.inr (.inr (by simp [hw])))

theorem exec_csActive_writers (h : exec i s = .next t) (hne : t.core.csActive ≠ s.core.csActive) :
    i = .csf ∨ i = .csr ∨ i = .rst ∨ (carriedWord i).isSome = true := by
  obtain ⟨rfl, -⟩ | ⟨rfl, -⟩ | ⟨d, -, rfl⟩ | ⟨rfl, -⟩ | ⟨k, -, rfl⟩ | ⟨w, hw, -⟩ := exec_cases h
  · exact .inl rfl
  · exact .inr (.inl rfl)
  · exact absurd (coreSclkRise_csActive d s.core) hne
  · exact .inr (.inr (.inl rfl))
  · exact absurd rfl hne
  · exact .inr (.inr (.inr (by simp [hw])))

end Writers

/-- Settles O16, element by element. -/
theorem writersOfEachStateElement : Obligations.WritersOfEachStateElement := by
  intro i s t h
  exact ⟨fun _ => exec_buf_writers h, exec_cursor_writers h, exec_pos_writers h, exec_csActive_writers h⟩

/-! ### Reset values (R35) -/

/-- Settles O14. -/
theorem resetValues : Obligations.ResetValues := by
  have hbuf : ∀ j : Fin 32, State.reset.core.buf[j.val] = 0#17 := fun j => Vector.getElem_replicate j.isLt
  exact ⟨hbuf, rfl, rfl, rfl⟩

/-! ### Host requests (R28, R30, R48, R49) -/

/-- The five instructions that the statements list are those with a request kind. -/
theorem requestKind_of_mem {i : Instr} (h : i ∈ [Instr.getv, .geti, .getp, .gete, .dump]) :
    ∃ k, requestKind i = some k := by
  simp only [List.mem_cons, List.not_mem_nil, or_false] at h
  obtain rfl | rfl | rfl | rfl | rfl := h <;> exact ⟨_, rfl⟩

/-- A host request returns the answer computed from the frame buffer and changes nothing else. -/
theorem exec_request_eq_replied {i : Instr} {k : RequestKind} (h : requestKind i = some k) (s : State) :
    exec i s = .next (replied (request Config.tables k s.core.buf) s) :=
  exec_request h s

/-- Settles O29. -/
theorem requestsChangeNoHardwareState : Obligations.RequestsChangeNoHardwareState := by
  intro i s hi
  obtain ⟨k, hk⟩ := requestKind_of_mem hi
  exact ⟨_, exec_request_eq_replied hk s⟩

/-- Settles O30: the response is `request` of the buffer the two states share. -/
theorem requestsReadOnlyTheFrameBuffer : Obligations.RequestsReadOnlyTheFrameBuffer := by
  intro i s t hi hbuf
  obtain ⟨k, hk⟩ := requestKind_of_mem hi
  have ht : exec i t = .next (replied (request Config.tables k s.core.buf) t) := by
    rw [hbuf]
    exact exec_request_eq_replied hk t
  exact ⟨_, exec_request_eq_replied hk s, ht⟩

end Sys2Proof.Machine

/-! ## The encodings: fields of a word, the decoder and the encoder (R60 to R72) -/

namespace Sys2Proof

/-! ### Packing and reading the fields of a word (R60, R61) -/

@[simp] theorem cmdOf_toNat (w : Word) : (cmdOf w).toNat = w.toNat / 2 ^ 14 := by
  rw [cmdOf, BitVec.extractLsb'_toNat, Nat.shiftRight_eq_div_pow]
  exact Nat.mod_eq_of_lt (by omega)

@[simp] theorem addrOf_toNat (w : Word) : (addrOf w).toNat = w.toNat / 2 ^ 8 % 2 ^ 6 := by
  rw [addrOf, BitVec.extractLsb'_toNat, Nat.shiftRight_eq_div_pow]

@[simp] theorem dataOf_toNat (w : Word) : (dataOf w).toNat = w.toNat % 2 ^ 8 := by
  rw [dataOf, BitVec.extractLsb'_toNat, Nat.shiftRight_zero]

/-- R76's formula for the word of a packet, on naturals: no field is cut off. -/
theorem packWord_toNat_eq_or (c : BitVec 3) (a : BitVec 6) (d : Byte) :
    (packWord c a d).toNat = c.toNat <<< 14 ||| a.toNat <<< 8 ||| d.toNat := by
  simp only [packWord, BitVec.toNat_or, BitVec.toNat_shiftLeft, BitVec.toNat_setWidth, Nat.shiftLeft_eq]
  simp (disch := omega) only [Nat.mod_eq_of_lt]

/-- The fields of a packet stand side by side. -/
theorem packWord_toNat (c : BitVec 3) (a : BitVec 6) (d : Byte) :
    (packWord c a d).toNat = c.toNat * 2 ^ 14 + a.toNat * 2 ^ 8 + d.toNat := by
  have had : a.toNat <<< 8 ||| d.toNat = a.toNat * 2 ^ 8 + d.toNat := by
    rw [← Nat.shiftLeft_add_eq_or_of_lt d.isLt, Nat.shiftLeft_eq]
  have hlt : a.toNat * 2 ^ 8 + d.toNat < 2 ^ 14 := by omega
  rw [packWord_toNat_eq_or, Nat.or_assoc, had, ← Nat.shiftLeft_add_eq_or_of_lt hlt, Nat.shiftLeft_eq, Nat.add_assoc]

@[simp] theorem cmdOf_packWord (c : BitVec 3) (a : BitVec 6) (d : Byte) : cmdOf (packWord c a d) = c := by
  apply BitVec.eq_of_toNat_eq
  rw [cmdOf_toNat, packWord_toNat]
  omega

@[simp] theorem addrOf_packWord (c : BitVec 3) (a : BitVec 6) (d : Byte) : addrOf (packWord c a d) = a := by
  apply BitVec.eq_of_toNat_eq
  rw [addrOf_toNat, packWord_toNat]
  omega

@[simp] theorem dataOf_packWord (c : BitVec 3) (a : BitVec 6) (d : Byte) : dataOf (packWord c a d) = d := by
  apply BitVec.eq_of_toNat_eq
  rw [dataOf_toNat, packWord_toNat]
  omega

/-- A word is the packet of its own fields. -/
@[simp] theorem packWord_fields (w : Word) : packWord (cmdOf w) (addrOf w) (dataOf w) = w := by
  apply BitVec.eq_of_toNat_eq
  rw [packWord_toNat, cmdOf_toNat, addrOf_toNat, dataOf_toNat]
  omega

/-- Settles O4, a field at a time. -/
theorem fieldsOfACapturedWord : Obligations.FieldsOfACapturedWord :=
  fun w => ⟨cmdOf_toNat w, addrOf_toNat w, dataOf_toNat w⟩

end Sys2Proof

namespace Sys2Proof.Machine

open Sys2Proof.Laws Sys2Proof.Spec

/-! ### Decoding and encoding (R63, R70 to R72) -/

/-- Every 17-bit word is the word of some bus-word row: the eight commands have a row each (R63, R72). -/
theorem exists_carriedWord (w : Word) : ∃ i, carriedWord i = some w := by
  have hc : ∀ c : BitVec 3, c = 0 ∨ c = 1 ∨ c = 2 ∨ c = 3 ∨ c = 4 ∨ c = 5 ∨ c = 6 ∨ c = 7 := by decide
  rw [← packWord_fields w]
  obtain h | h | h | h | h | h | h | h := hc (cmdOf w) <;> rw [h]
  · exact ⟨.ignoredCmd0 _ _, rfl⟩
  · exact ⟨.ignoredCmd1 _ _, rfl⟩
  · exact ⟨.ignoredCmd2 _ _, rfl⟩
  · exact ⟨.ignoredCmd3 _ _, rfl⟩
  · exact ⟨.ignoredCmd4 _ _, rfl⟩
  · exact ⟨.writeMemory _ _, rfl⟩
  · exact ⟨.ignoredCmd6 _ _, rfl⟩
  · exact ⟨.ignoredCmd7 _ _, rfl⟩

/-- The word of a row decodes to that row, with its operands. -/
theorem decodeBusWord_of_carriedWord {i : Instr} {w : Word} (h : carriedWord i = some w) : decodeBusWord w = i := by
  cases i with
  | writeMemory | ignoredCmd0 | ignoredCmd1 | ignoredCmd2 | ignoredCmd3 | ignoredCmd4 | ignoredCmd6 | ignoredCmd7 =>
    cases h
    simp [decodeBusWord]
  | _ => cases h

/-- A word's row carries that word. -/
theorem carriedWord_decodeBusWord (w : Word) : carriedWord (decodeBusWord w) = some w := by
  obtain ⟨i, hi⟩ := exists_carriedWord w
  rwa [decodeBusWord_of_carriedWord hi]

theorem encode_of_carriedWord {i : Instr} {w : Word} (h : carriedWord i = some w) : encode i = .busWord w := by
  cases i with
  | writeMemory | ignoredCmd0 | ignoredCmd1 | ignoredCmd2 | ignoredCmd3 | ignoredCmd4 | ignoredCmd6 | ignoredCmd7 =>
    cases h
    rfl
  | _ => cases h

theorem encode_decodeOp4 : ∀ code : BitVec 4, encode (decodeOp4 code) = .op4 code := by decide

/-- Settles O1: operation codes by the value of their operand bit, bus words by the row that carries them. -/
theorem decodeAfterEncodeIsIdentity : Obligations.DecodeAfterEncodeIsIdentity := by
  intro i
  cases i with
  | csf | csr | rst | getv | geti | getp | gete | dump | reservedOp0101 | reservedOp1101 => rfl
  | clk x | reservedOp011x x | reservedOp111x x => obtain rfl | rfl := bit_cases x <;> rfl
  | writeMemory | ignoredCmd0 | ignoredCmd1 | ignoredCmd2 | ignoredCmd3 | ignoredCmd4 | ignoredCmd6 | ignoredCmd7 =>
    exact decodeBusWord_of_carriedWord rfl

/-- Settles O2: operation codes by evaluation, bus words by the row that carries them. -/
theorem encodeAfterDecodeIsIdentity : Obligations.EncodeAfterDecodeIsIdentity := by
  intro x
  cases x with
  | op4 code => exact encode_decodeOp4 code
  | busWord w => exact encode_of_carriedWord (carriedWord_decodeBusWord w)

/-- Settles O5: the rows by the words they carry, the example word by evaluation. -/
theorem busWordsDecodeByTheirCommand : Obligations.BusWordsDecodeByTheirCommand := by
  refine ⟨fun a d => ⟨?_, ?_, ?_, ?_, ?_, ?_, ?_, ?_⟩, rfl⟩ <;> exact decodeBusWord_of_carriedWord rfl

/-- Settles O3, by evaluating the table on its sixteen codes. -/
theorem operationCodesDecodeByTheTable : Obligations.OperationCodesDecodeByTheTable := by
  unfold Obligations.OperationCodesDecodeByTheTable
  decide

/-- Settles O8, code by code. -/
theorem reservedCodesAreRefused : Obligations.ReservedCodesAreRefused := by
  intro code hcode s
  simp only [List.mem_cons, List.not_mem_nil, or_false] at hcode
  obtain rfl | rfl | rfl | rfl | rfl | rfl := hcode <;> rfl

/-! ### A transaction of 17 edges (R62, R76, R84) -/

/-- A sampled level stands in one bit of the word (R82). -/
theorem getLsbD_level_shiftLeft (d : Bit) {k : Nat} (hk : k < 17) (i : Nat) :
    (d.setWidth 17 <<< k).getLsbD i = (decide (i = k) && d.getLsbD 0) := by
  obtain hi | rfl | hi : i < k ∨ i = k ∨ k < i := by omega
  · simp [hi, hi.ne]
  · simp [hk]
  · have hbeyond : d.getLsbD (i - k) = false := d.getLsbD_of_ge _ (by omega)
    simp [hbeyond, hi.ne']

/-- Bit `16 - n` of what a transaction samples is the level of its edge `n`, edges counted from 0; bits without an
edge are 0. -/
theorem getLsbD_sampledFrom (bits : List Bit) (p i : Nat) (h : p + bits.length ≤ 17) :
    (sampledFrom p bits).getLsbD i = (decide (i + p ≤ 16) && (bits[16 - (i + p)]?.getD 0#1).getLsbD 0) := by
  induction bits generalizing p with
  | nil => simp [sampledFrom]
  | cons d ds ih =>
    simp only [List.length_cons] at h
    have hrest := ih (p + 1) (by omega)
    rw [sampledFrom, BitVec.getLsbD_or, getLsbD_level_shiftLeft d (by omega), hrest]
    obtain hi | hi | hi : 16 < i + p ∨ i + p = 16 ∨ i + p < 16 := by omega
    · have hne : i ≠ 16 - p := by omega
      have hnext : ¬ i + (p + 1) ≤ 16 := by omega
      simp [hne, hnext, hi]
    · have hedge : i = 16 - p := by omega
      have hnext : ¬ i + (p + 1) ≤ 16 := by omega
      rw [decide_eq_true hedge, decide_eq_false hnext, hi]
      simp
    · have hne : i ≠ 16 - p := by omega
      have hnext : 16 - (i + p) = 16 - (i + (p + 1)) + 1 := by omega
      have hle : i + (p + 1) ≤ 16 := by omega
      rw [hnext, List.getElem?_cons_succ]
      simp [hne, hle, hi.le]

@[simp] theorem length_serialBits (w : Word) : (serialBits w).length = 17 := by simp [serialBits]

/-- The 17 edges that carry a word leave that word (R62, R84). -/
theorem sampledFrom_serialBits (w : Word) : sampledFrom 0 (serialBits w) = w := by
  apply BitVec.eq_of_getLsbD_eq
  intro i hi
  rw [getLsbD_sampledFrom _ _ _ (by simp)]
  have hle : i ≤ 16 := by omega
  have hlt : 16 - i < 17 := by omega
  have hsub : 16 - (16 - i) = i := by omega
  simp [serialBits, hle, hlt, hsub]

/-- A transaction of at most 17 edges leaves what they sample in the slot at the cursor, and `pos` at their number
(R84, R85). -/
theorem transact_eq_captured_with_pos (bits : List Bit) (s : State) (h : bits.length ≤ 17) :
    transact bits s =
      { captured (sampledFrom 0 bits) s with
        core := { (captured (sampledFrom 0 bits) s).core with pos := ⟨bits.length, by omega⟩ } } := by
  have hedges := foldl_coreSclkRise bits (coreCsFall s.core) rfl (by simpa using h)
  rw [transact, sampleBits_eq, csFall_core, hedges]
  simp [csRise, coreCsRise, captured, memWrite, memRead]

/-- The transaction that carries a word captures it whole (R62, R84). -/
theorem transactWord_eq_captured (w : Word) (s : State) : transactWord w s = captured w s := by
  rw [transactWord, transact_eq_captured_with_pos _ _ (by simp), sampledFrom_serialBits]
  simp only [length_serialBits]
  rfl

theorem exec_carriedWord_eq_captured {i : Instr} {w : Word} (h : carriedWord i = some w) (s : State) :
    exec i s = .next (captured w s) := by
  rw [exec_carriedWord h, transactWord_eq_captured]

/-- Settles O17: each row captures the word it carries. -/
theorem busWordsAreCapturedWhole : Obligations.BusWordsAreCapturedWhole := by
  intro a d s
  refine ⟨?_, ?_, ?_, ?_, ?_, ?_, ?_, ?_⟩ <;> exact exec_carriedWord_eq_captured rfl s

/-- The operations of a transaction run as it does (R76, `xact`). -/
theorem runOps_transact (bits : List Bit) (s : State) :
    runOps (.csf :: bits.map .clk ++ [.csr]) s = .next (transact bits s) := by
  have hedges := runOps_clk bits (csFall s)
  exact runOps_append hedges [.csr]

/-- Settles O57: the operations of `word W` and the row of `W` are both the transaction that carries `W`. -/
theorem busWordEqualsItsNineteenOperations : Obligations.BusWordEqualsItsNineteenOperations := by
  intro w s
  constructor
  · simp [expandWord]
  · rw [decode, exec_carriedWord (carriedWord_decodeBusWord w)]
    exact runOps_transact (serialBits w) s

/-! ### Pseudo-operations (R75, R76) -/

/-- The levels of `W[16]` to `W[0]`, in order (R76). -/
theorem serialBits_eq_finRange (w : Word) :
    serialBits w = (List.finRange 17).map fun n => BitVec.ofBool (w.getLsbD (16 - n.val)) := by
  have hbit : ∀ i, w.extractLsb' i 1 = BitVec.ofBool (w.getLsbD i) := by
    intro i
    ext j hj
    obtain rfl : j = 0 := by omega
    simp
  simp only [serialBits, ← List.map_coe_finRange_eq_range, List.map_map, Function.comp_def, hbit]

/-- Levels written as numbers expand to clock edges with those levels (R76, `bits`). -/
@[simp] theorem expandBits_map_toNat (bs : List Bit) : expandBits (bs.map BitVec.toNat) = bs.map .clk := by
  simp [expandBits]

/-- `pkt C, A, D` sends the packet's word (R60, R76). -/
theorem expandPkt_eq_expandWord {c a d : Nat} (hc : c < 8) (ha : a < 64) (hd : d < 256) :
    expandPkt c a d = expandWord (packWord (BitVec.ofNat 3 c) (BitVec.ofNat 6 a) (BitVec.ofNat 8 d)) := by
  have hword : c <<< 14 ||| a <<< 8 ||| d =
      (packWord (BitVec.ofNat 3 c) (BitVec.ofNat 6 a) (BitVec.ofNat 8 d)).toNat := by
    rw [packWord_toNat_eq_or]
    simp (disch := omega) only [BitVec.toNat_ofNat, Nat.mod_eq_of_lt]
  rw [expandPkt, hword, BitVec.ofNat_toNat, BitVec.setWidth_eq]

@[simp] theorem length_expandPkt (c a d : Nat) : (expandPkt c a d).length = 19 := by simp [expandPkt, expandWord]

theorem length_expandSeqFrom (a : Nat) (ds : List Nat) : (expandSeqFrom a ds).length = 19 * ds.length := by
  induction ds generalizing a with
  | nil => rfl
  | cons d ds ih => simp [expandSeqFrom, ih]; omega

/-- `seq` sends its data in order, each at the address 2 above the one before (R76). -/
theorem expandSeqFrom_eq_flatMap (a : Nat) (ds : List Nat) :
    expandSeqFrom a ds = (List.finRange ds.length).flatMap fun k => expandPkt 5 (a + 2 * k.val) ds[k.val] := by
  induction ds generalizing a with
  | nil => rfl
  | cons d ds ih =>
    have haddress : ∀ k, a + 2 + 2 * k = a + 2 * (k + 1) := by omega
    simp [expandSeqFrom, ih, List.finRange_succ, List.flatMap_map, haddress]

theorem expandSeqFrom_toList {n : Nat} (a : Nat) (ds : Vector Nat n) :
    expandSeqFrom a ds.toList = (List.finRange n).flatMap fun k => expandPkt 5 (a + 2 * k.val) ds[k.val] := by
  obtain ⟨⟨l⟩, rfl⟩ := ds
  exact expandSeqFrom_eq_flatMap a l

/-- A program of well-formed lines encodes as its expansion (R75, R76). -/
theorem encodeProgram_of_wellFormed {ls : List SourceLine} (h : ∀ l ∈ ls, l.wellFormed = true) :
    encodeProgram ls = some ((ls.flatMap expandLine).map encode) := by
  induction ls with
  | nil => rfl
  | cons l ls ih =>
    obtain ⟨hl, hls⟩ := List.forall_mem_cons.1 h
    simp [encodeProgram, hl, ih hls]

/-- An ill-formed line leaves a program without an encoding (R76). -/
theorem encodeProgram_of_illFormed {ls : List SourceLine} (h : ∃ l ∈ ls, l.wellFormed = false) :
    encodeProgram ls = none := by
  induction ls with
  | nil => simp at h
  | cons l ls ih =>
    obtain hl | hls := (List.exists_mem_cons_iff ..).1 h
    · simp [encodeProgram, hl]
    · simp [encodeProgram, ih hls]

/-- Settles O58, pseudo-operation by pseudo-operation. -/
theorem pseudoOperationsExpandExactly : Obligations.PseudoOperationsExpandExactly := by
  refine ⟨by decide, expandBits_map_toNat, fun w => ?word, fun c a d hc ha hd => ?pkt, fun bs => ?xact, fun ds => ?seq,
    rfl, fun ls => encodeProgram_of_wellFormed, fun ls => encodeProgram_of_illFormed⟩
  case word => simp [expandLine, expandWord, serialBits_eq_finRange]
  case pkt => simp [expandLine, expandPkt_eq_expandWord hc ha hd]
  case xact => simp [expandLine]
  case seq =>
    refine ⟨(length_expandSeqFrom 0 ds.toList).trans (by simp), ?_⟩
    simp [expandLine, expandSeqFrom_toList]

/-! ### The segment tables (R68) -/

/-- A table is injective when its entries, as a list, are distinct. -/
theorem vector_nodup_iff {α : Type} {n : Nat} (v : Vector α n) :
    v.toList.Nodup ↔ ∀ d e : Fin n, v[d.val] = v[e.val] → d = e := by
  obtain ⟨⟨l⟩, rfl⟩ := v
  exact List.nodup_iff_injective_get

/-- The four constraints of R68, entry by entry. -/
theorem segTables_wellFormed_iff (t : SegTables) :
    t.wellFormed = true ↔
      (∀ d e : Fin 10, t.vc[d.val] = t.vc[e.val] → d = e) ∧ (∀ d e : Fin 10, t.pe[d.val] = t.pe[e.val] → d = e) ∧
      (∀ d : Fin 10, t.vc[d.val] &&& 0x88#8 = 0#8) ∧
      t.vc[0] = 0x05#8 ∧ t.vc[1] = 0x75#8 ∧ t.vc[2] = 0x53#8 ∧ t.vc[3] = 0x17#8 := by
  simp [SegTables.wellFormed, SegTables.vcInjective, SegTables.peInjective, SegTables.vcBitsClear, SegTables.vcPinned,
    vector_nodup_iff, Fin.forall_iff, and_assoc]

/-- Settles O43: what R68 asks holds by the type of a configuration, and the PE entries have 7 bits. -/
theorem hardwareTablesAreWellFormed : Obligations.HardwareTablesAreWellFormed := by
  obtain ⟨hvc, hpe, hclear, hpinned⟩ := (segTables_wellFormed_iff Config.tables).1 Config.tables_wellFormed
  exact ⟨hvc, hpe, fun d => Config.tables.pe[d.val].isLt, hclear, hpinned⟩

end Sys2Proof.Machine

/-! ## The bit sampler (R81 to R91) -/

namespace Sys2Proof.Machine

open Sys2Proof.Spec

/-! ### The three bus events (R81 to R83) -/

/-- Settles O10, by what the dispatch runs. -/
theorem csFallBeginsATransaction : Obligations.CsFallBeginsATransaction := exec_csf

/-- Settles O11: the edge is sampled, or it is ignored. -/
theorem sclkRiseSamplesOneBit : Obligations.SclkRiseSamplesOneBit := by
  intro d s
  rw [exec_clk, sclkRise]
  constructor
  · intro hpos hactive
    rw [coreSclkRise_sampled d s.core hactive hpos, hactive]
    rfl
  · intro hignored
    rw [coreSclkRise_ignored d s.core hignored]

/-- Settles O12, by what the dispatch runs. -/
theorem csRiseEndsTheTransaction : Obligations.CsRiseEndsTheTransaction := exec_csr

/-! ### The one slot that a transaction can write (R88) -/

/-- CS_FALL, clock edges and requests leave the cursor and every slot but the one at it. -/
theorem exec_of_staysInSlot {i : Instr} (h : staysInSlot i) (s : State) :
    ∃ t, exec i s = .next t ∧ t.core.cursor = s.core.cursor ∧
      ∀ j, j ≠ s.core.cursor → memRead t.core.buf j = memRead s.core.buf j := by
  obtain rfl | ⟨d, rfl⟩ | hrequest := h
  · exact ⟨csFall s, rfl, rfl, fun j hj => memRead_memWrite_other _ _ hj⟩
  · exact ⟨sclkRise d s, rfl, coreSclkRise_cursor d s.core, fun j hj => memRead_coreSclkRise_other d s.core hj⟩
  · obtain ⟨k, hk⟩ := Option.isSome_iff_exists.1 hrequest
    exact ⟨answer k s, exec_request hk s, rfl, fun _ _ => rfl⟩

theorem runOps_of_staysInSlot {ops : List Instr} (h : ∀ i ∈ ops, staysInSlot i) (s : State) :
    ∃ t, runOps ops s = .next t ∧ t.core.cursor = s.core.cursor ∧
      ∀ j, j ≠ s.core.cursor → memRead t.core.buf j = memRead s.core.buf j := by
  induction ops generalizing s with
  | nil => exact ⟨s, rfl, rfl, fun _ _ => rfl⟩
  | cons i ops ih =>
    obtain ⟨hi, hops⟩ := List.forall_mem_cons.1 h
    obtain ⟨u, hexec, hucursor, hubuf⟩ := exec_of_staysInSlot hi s
    obtain ⟨t, hrun, htcursor, htbuf⟩ := ih hops u
    refine ⟨t, (runOps_cons hexec ops).trans hrun, htcursor.trans hucursor, fun j hj => ?_⟩
    exact (htbuf j (hucursor ▸ hj)).trans (hubuf j hj)

/-- Settles O15: the frame of each event by the slot it can write, the frame of a run by induction on its list. -/
theorem busEventsTouchOneRingSlot : Obligations.BusEventsTouchOneRingSlot := by
  refine ⟨?_, fun ops s h => runOps_of_staysInSlot h s⟩
  rintro i s t (rfl | ⟨d, rfl⟩ | rfl) h
  · cases h
    exact ⟨fun j hj => memRead_memWrite_other _ _ hj, rfl, rfl⟩
  · cases h
    exact ⟨fun j hj => memRead_coreSclkRise_other d s.core hj, rfl, rfl⟩
  · cases h
    exact ⟨fun _ _ => rfl, rfl, rfl⟩

/-! ### Clock edges that are ignored (R86, R89, R90) -/

theorem sampleBits_ignored (bits : List Bit) {s : State} (h : s.core.csActive = false ∨ s.core.pos = 17) :
    sampleBits bits s = s := by
  rw [sampleBits_eq, foldl_coreSclkRise_ignored bits s.core h]

/-- Clock edges after RESET leave the state RESET left (R89). -/
theorem runOps_rst_clk (bits : List Bit) (s : State) :
    runOps (.rst :: bits.map .clk) s = .next (resetCore s) := by
  rw [runOps_cons (exec_rst s), runOps_clk, sampleBits_ignored bits (.inl rfl)]

/-- Settles O22. -/
theorem clockEdgesOutsideATransactionAreIgnored : Obligations.ClockEdgesOutsideATransactionAreIgnored := by
  intro bits s
  constructor
  · intro hinactive
    rw [runOps_clk, sampleBits_ignored bits (.inl hinactive)]
  · exact ⟨resetCore s, runOps_rst_clk bits s, rfl⟩

/-- Settles O23: the edges are ignored, so the CS_RISE finds the state RESET left. -/
theorem firstRiseAfterResetCapturesNothing : Obligations.FirstRiseAfterResetCapturesNothing := by
  intro bits s
  have hrun : runOps (.rst :: bits.map .clk ++ [.csr]) s = .next (csRise (resetCore s)) :=
    runOps_append (runOps_rst_clk bits s) [.csr]
  exact ⟨_, hrun, rfl, rfl, fun j => Vector.getElem_replicate j.isLt⟩

/-! ### The edges of a transaction (R84 to R86) -/

/-- The state in which edges have left a word in the slot at the cursor, with the transaction still open (R81, R82). -/
def inProgress (w : Word) (pos : Fin 18) (s : State) : State :=
  { s with
    core := { buf := memWrite s.core.buf s.core.cursor w, cursor := s.core.cursor, pos := pos, csActive := true }
    csLevel := .low }

/-- Edges after CS_FALL, while they find room, leave what they sample, and `pos` at their number. -/
theorem sampleBits_csFall (bits : List Bit) (s : State) (h : bits.length ≤ 17) :
    sampleBits bits (csFall s) = inProgress (sampledFrom 0 bits) ⟨bits.length, by omega⟩ s := by
  have hedges := foldl_coreSclkRise bits (coreCsFall s.core) rfl (by simpa using h)
  rw [sampleBits_eq, csFall_core, hedges]
  simp [inProgress, csFall, coreCsFall]

theorem sampleBits_append (as bs : List Bit) (s : State) :
    sampleBits (as ++ bs) s = sampleBits bs (sampleBits as s) := List.foldl_append

/-- Edges after the 17th are ignored (R86). -/
theorem transact_take (bits : List Bit) (s : State) : transact (bits.take 17) s = transact bits s := by
  obtain hshort | hfull : bits.length ≤ 17 ∨ 17 ≤ bits.length := by omega
  · rw [List.take_of_length_le hshort]
  · have hlength : (bits.take 17).length = 17 := by simp [hfull]
    have hpos : (sampleBits (bits.take 17) (csFall s)).core.pos = 17 := by
      rw [sampleBits_csFall _ _ hlength.le]
      exact Fin.ext hlength
    conv_rhs => rw [← List.take_append_drop 17 bits]
    rw [transact, transact, sampleBits_append, sampleBits_ignored _ (.inr hpos)]

/-- A transaction of 17 edges captures what they sample (R84). -/
theorem transact_eq_captured {bits : List Bit} (h : bits.length = 17) (s : State) :
    transact bits s = captured (sampledFrom 0 bits) s := by
  rw [transact_eq_captured_with_pos bits s h.le]
  simp only [h]
  rfl

/-- Settles O21: both runs end in the transaction of the first 17 levels. -/
theorem extraEdgesAreIgnored : Obligations.ExtraEdgesAreIgnored := by
  intro bits s h
  refine ⟨transact (bits.take 17) s, ?_, runOps_transact _ s, ?_⟩
  · rw [transact_take]
    exact runOps_transact bits s
  · rw [transact_eq_captured (by simp [h])]
    rfl

/-! ### The word that 17 edges leave (R84) -/

theorem level_shiftLeft_lt (d : Bit) (k : Nat) : d.toNat <<< k < 2 ^ (k + 1) := by
  rw [Nat.shiftLeft_eq, pow_succ']
  exact Nat.mul_lt_mul_of_pos_right d.isLt (by positivity)

theorem toNat_level_shiftLeft (d : Bit) {k : Nat} (hk : k < 17) : (d.setWidth 17 <<< k).toNat = d.toNat <<< k := by
  have hfits : d.toNat <<< k < 2 ^ 17 := (level_shiftLeft_lt d k).trans_le (Nat.pow_le_pow_right (by decide) hk)
  rw [BitVec.toNat_shiftLeft, BitVec.toNat_setWidth_of_le (by decide), Nat.mod_eq_of_lt hfits]

/-- Edges from position `p` on set bits below `17 - p` alone. -/
theorem sampledFrom_lt (p : Nat) (bits : List Bit) (h : p + bits.length ≤ 17) :
    (sampledFrom p bits).toNat < 2 ^ (17 - p) := by
  induction bits generalizing p with
  | nil => simp [sampledFrom]
  | cons d ds ih =>
    simp only [List.length_cons] at h
    have hlevel := level_shiftLeft_lt d (16 - p)
    have hrest := ih (p + 1) (by omega)
    have hexp : 16 - p + 1 = 17 - p := by omega
    rw [hexp] at hlevel
    rw [sampledFrom, BitVec.toNat_or, toNat_level_shiftLeft d (by omega)]
    exact Nat.or_lt_two_pow hlevel (hrest.trans_le (Nat.pow_le_pow_right (by decide) (by omega)))

/-- The levels stand in different bits, so ORing them in is adding them up. -/
theorem sampledFrom_toNat (p : Nat) (bits : List Bit) (h : p + bits.length ≤ 17) :
    (sampledFrom p bits).toNat = ∑ n : Fin bits.length, bits[n.val].toNat * 2 ^ (16 - (p + n.val)) := by
  induction bits generalizing p with
  | nil => rfl
  | cons d ds ih =>
    simp only [List.length_cons] at h
    have hbelow : (sampledFrom (p + 1) ds).toNat < 2 ^ (16 - p) := by
      simpa using sampledFrom_lt (p + 1) ds (by omega)
    rw [sampledFrom, BitVec.toNat_or, toNat_level_shiftLeft d (by omega), ← Nat.shiftLeft_add_eq_or_of_lt hbelow,
      ih (p + 1) (by omega), Nat.shiftLeft_eq]
    simp [Fin.sum_univ_succ, Nat.add_assoc, Nat.add_comm 1]

theorem sampledFrom_toList_toNat {n : Nat} (b : Vector Bit n) (h : n ≤ 17) :
    (sampledFrom 0 b.toList).toNat = ∑ i : Fin n, b[i.val].toNat * 2 ^ (16 - i.val) := by
  obtain ⟨⟨bits⟩, rfl⟩ := b
  have hsum := sampledFrom_toNat 0 bits (by simpa using h)
  simp only [Nat.zero_add] at hsum
  exact hsum

/-- Settles O18: the word is what the 17 edges sample. -/
theorem seventeenEdgesLeaveTheWord : Obligations.SeventeenEdgesLeaveTheWord := by
  intro b s
  refine ⟨sampledFrom 0 b.toList, sampledFrom_toList_toNat b le_rfl, ?_, ?_⟩
  · rw [getLsbD_sampledFrom _ _ _ (by simp)]
    simp
  · rw [runOps_transact, transact_eq_captured (by simp)]

/-! ### Transactions cut off (R85, R159, R160) -/

/-- The mask `(1 << k) - 1` has the bits below `k`. -/
theorem getLsbD_lowMask (n k i : Nat) : ((1#n <<< k) - 1#n).getLsbD i = (decide (i < n) && decide (i < k)) := by
  have hmask : (1#n <<< k) - 1#n = BitVec.ofNat n (2 ^ k - 1) := by
    rw [sub_eq_iff_eq_add, ← BitVec.ofNat_add, Nat.sub_add_cancel Nat.one_le_two_pow, ← BitVec.twoPow_eq]
    apply BitVec.eq_of_toNat_eq
    rw [BitVec.toNat_twoPow, BitVec.toNat_ofNat]
  rw [hmask, BitVec.getLsbD_ofNat, Nat.testBit_two_pow_sub_one]

/-- `x & ~((1 << k) - 1)` keeps the bits from `k` on. -/
theorem getLsbD_and_not_lowMask {n : Nat} (x : BitVec n) (k i : Nat) :
    (x &&& ~~~((1#n <<< k) - 1#n)).getLsbD i = (x.getLsbD i && decide (k ≤ i)) := by
  have hnot : (!decide (i < k)) = decide (k ≤ i) := by simp [← decide_not]
  rw [BitVec.getLsbD_and, BitVec.getLsbD_not, getLsbD_lowMask]
  by_cases hi : i < n
  · simp [hi, hnot]
  · simp [x.getLsbD_of_ge i (by omega)]

theorem getLsbD_truncated (w : Word) (m i : Nat) :
    (truncated w m).getLsbD i = (w.getLsbD i && decide (17 - m ≤ i)) :=
  getLsbD_and_not_lowMask w (17 - m) i

/-- The first `m` edges of a word's transaction leave the word with its low bits cleared (R85). -/
theorem sampledFrom_take_serialBits (w : Word) {m : Nat} (hm : m ≤ 17) :
    sampledFrom 0 ((serialBits w).take m) = truncated w m := by
  apply BitVec.eq_of_getLsbD_eq
  intro i hi
  have hbit : (sampledFrom 0 (serialBits w)).getLsbD i = w.getLsbD i := by rw [sampledFrom_serialBits]
  rw [getLsbD_sampledFrom _ _ _ (by simp)] at hbit
  rw [getLsbD_sampledFrom _ _ _ (by simp), List.getElem?_take, getLsbD_truncated, ← hbit]
  obtain hedge | hedge : 16 - i < m ∨ m ≤ 16 - i := by omega
  · have hkept : 17 - m ≤ i := by omega
    simp [hedge, hkept]
  · have hcleared : ¬ 17 - m ≤ i := by omega
    simp [hedge.not_gt, hcleared]

/-- Settles O19: the edges sample the truncated word, and the CS_RISE closes the transaction as it stands. -/
theorem shortCaptureKeepsTheFirstSamples : Obligations.ShortCaptureKeepsTheFirstSamples := by
  intro w m hm s
  have hlength : ((serialBits w).take m).length = m := by simp [hm.le]
  have hword := sampledFrom_take_serialBits w hm.le
  constructor
  · rw [runOps_cons (exec_csf s), runOps_clk, sampleBits_csFall _ _ (by omega), hword]
    simp only [hlength]
    rfl
  · rw [runOps_transact, transact_eq_captured_with_pos _ _ (by omega), hword]
    simp only [hlength]

/-- A field of a truncated word is the field with those of its low bits cleared that are cut off. -/
theorem extractLsb'_truncated (w : Word) (m a l : Nat) :
    (truncated w m).extractLsb' a l = w.extractLsb' a l &&& ~~~((1#l <<< (17 - m - a)) - 1#l) := by
  apply BitVec.eq_of_getLsbD_eq
  intro i hi
  have hcut : 17 - m ≤ a + i ↔ 17 - m - a ≤ i := by omega
  simp only [BitVec.getLsbD_extractLsb', getLsbD_truncated, getLsbD_and_not_lowMask, hcut, Bool.and_assoc]

theorem and_not_lowMask_zero {n : Nat} (x : BitVec n) : x &&& ~~~((1#n <<< 0) - 1#n) = x := by simp

theorem and_not_lowMask_of_le {n k : Nat} (x : BitVec n) (h : n ≤ k) : x &&& ~~~((1#n <<< k) - 1#n) = 0#n := by
  apply BitVec.eq_of_getLsbD_eq
  intro i hi
  rw [getLsbD_and_not_lowMask, decide_eq_false (by omega), Bool.and_false, BitVec.getLsbD_zero]

theorem cmdOf_truncated (w : Word) (m : Nat) :
    cmdOf (truncated w m) = cmdOf w &&& ~~~((1#3 <<< (3 - m)) - 1#3) := by
  rw [cmdOf, extractLsb'_truncated, show 17 - m - 14 = 3 - m by omega, cmdOf]

theorem addrOf_truncated (w : Word) (m : Nat) :
    addrOf (truncated w m) = addrOf w &&& ~~~((1#6 <<< (9 - m)) - 1#6) := by
  rw [addrOf, extractLsb'_truncated, show 17 - m - 8 = 9 - m by omega, addrOf]

theorem dataOf_truncated (w : Word) (m : Nat) :
    dataOf (truncated w m) = dataOf w &&& ~~~((1#8 <<< (17 - m)) - 1#8) :=
  extractLsb'_truncated w m 0 8

/-- Clearing at least one bit of a command clears the lowest, which 5 has. -/
theorem cmdOf_truncated_ne_five (w : Word) {m : Nat} (h : m < 3) : cmdOf (truncated w m) ≠ 5#3 := by
  intro hcmd
  have hbit : (cmdOf (truncated w m)).getLsbD 0 = true := by rw [hcmd]; rfl
  rw [cmdOf_truncated, getLsbD_and_not_lowMask, decide_eq_false (by omega)] at hbit
  simp at hbit

theorem addrOf_truncated_of_nine_le (w : Word) {m : Nat} (h : 9 ≤ m) : addrOf (truncated w m) = addrOf w := by
  rw [addrOf_truncated, Nat.sub_eq_zero_of_le h, and_not_lowMask_zero]

/-- An even address has nothing in the one bit that 8 edges leave out (R159). -/
theorem addrOf_truncated_eight {w : Word} (h : (addrOf w).toNat % 2 = 0) : addrOf (truncated w 8) = addrOf w := by
  have heven : ∀ a : BitVec 6, a.toNat % 2 = 0 → a &&& ~~~((1#6 <<< 1) - 1#6) = a := by decide
  rw [addrOf_truncated, heven _ h]

/-- An address below 32 has nothing in the one bit that 4 edges bring in. -/
theorem addrOf_truncated_four {w : Word} (h : (addrOf w).toNat < 32) : addrOf (truncated w 4) = 0#6 := by
  have hsmall : ∀ a : BitVec 6, a.toNat < 32 → a &&& ~~~((1#6 <<< 5) - 1#6) = 0#6 := by decide
  rw [addrOf_truncated, hsmall _ h]

/-- Settles O20, field by field. -/
theorem fieldsOfAShortCapture : Obligations.FieldsOfAShortCapture := by
  intro w m hm
  refine ⟨?zero, cmdOf_truncated_ne_five w, ?cmdFour, ?cmdKept, ?addrThree, ?addrFour,
    fun _ _ => addrOf_truncated w m, ?addrEven, addrOf_truncated_of_nine_le w, ?dataZero, fun _ => dataOf_truncated w m⟩
  case zero =>
    rintro rfl
    exact and_not_lowMask_of_le w le_rfl
  case cmdFour =>
    rintro (rfl | rfl) hcmd <;> rw [cmdOf_truncated, hcmd] <;> rfl
  case cmdKept =>
    intro h
    rw [cmdOf_truncated, Nat.sub_eq_zero_of_le h, and_not_lowMask_zero]
  case addrThree =>
    rintro rfl
    rw [addrOf_truncated, and_not_lowMask_of_le _ (by decide)]
  case addrFour =>
    rintro rfl h
    exact addrOf_truncated_four h
  case addrEven =>
    intro h heven
    obtain rfl | h : m = 8 ∨ 9 ≤ m := by omega
    · exact addrOf_truncated_eight heven
    · exact addrOf_truncated_of_nine_le w h
  case dataZero =>
    intro h
    rw [dataOf_truncated, and_not_lowMask_of_le _ (by omega)]

/-! ### The ring over many transactions (R56, R91) -/

/-- The slot `k` transactions after a cursor. -/
def slotAfter (c : Fin 32) (k : Nat) : Fin 32 := ⟨(c.val + k) % 32, Nat.mod_lt _ (by decide)⟩

theorem slotAfter_succ (c : Fin 32) (k : Nat) : slotAfter (slotAfter c 1) k = slotAfter c (k + 1) := by
  apply Fin.ext
  simp only [slotAfter]
  omega

@[simp] theorem slotAfter_zero (c : Fin 32) : slotAfter c 0 = c := Fin.ext (Nat.mod_eq_of_lt c.isLt)

theorem slotAfter_ne {k : Nat} (c : Fin 32) (hpos : 0 < k) (hlt : k < 32) : slotAfter c k ≠ c := by
  intro h
  have hval := congrArg Fin.val h
  simp only [slotAfter] at hval
  omega

/-- After 32 transactions the cursor is back. -/
theorem slotAfter_add_32 (c : Fin 32) (k : Nat) : slotAfter c (k + 32) = slotAfter c k := by
  apply Fin.ext
  simp only [slotAfter]
  omega

@[simp] theorem captured_core_cursor (w : Word) (s : State) :
    (captured w s).core.cursor = slotAfter s.core.cursor 1 := rfl

@[simp] theorem memRead_captured_same (w : Word) (s : State) :
    memRead (captured w s).core.buf s.core.cursor = w :=
  memRead_memWrite_same s.core.buf s.core.cursor w

theorem memRead_captured_other (w : Word) (s : State) {j : Fin 32} (h : j ≠ s.core.cursor) :
    memRead (captured w s).core.buf j = memRead s.core.buf j :=
  memRead_memWrite_other s.core.buf w h

/-- The state after words have been captured one after another. -/
def capturedAll (ws : List Word) (s : State) : State := ws.foldl (fun t w => captured w t) s

@[simp] theorem capturedAll_nil (s : State) : capturedAll [] s = s := rfl

@[simp] theorem capturedAll_cons (w : Word) (ws : List Word) (s : State) :
    capturedAll (w :: ws) s = capturedAll ws (captured w s) := rfl

theorem runOps_expandWord (w : Word) (s : State) : runOps (expandWord w) s = .next (captured w s) := by
  rw [← transactWord_eq_captured]
  exact runOps_transact (serialBits w) s

theorem runOps_flatMap_expandWord (ws : List Word) (s : State) :
    runOps (ws.flatMap expandWord) s = .next (capturedAll ws s) := by
  induction ws generalizing s with
  | nil => rfl
  | cons w ws ih =>
    rw [List.flatMap_cons, runOps_append (runOps_expandWord w s), ih, capturedAll_cons]

theorem capturedAll_core_cursor (ws : List Word) (s : State) :
    (capturedAll ws s).core.cursor = slotAfter s.core.cursor ws.length := by
  induction ws generalizing s with
  | nil => simp
  | cons w ws ih => simp [ih, slotAfter_succ]

/-- A slot that the cursor has not reached keeps its word. -/
theorem memRead_capturedAll_notReached (ws : List Word) (s : State) {k : Nat} (hk : ws.length ≤ k) (hlt : k < 32) :
    memRead (capturedAll ws s).core.buf (slotAfter s.core.cursor k) =
      memRead s.core.buf (slotAfter s.core.cursor k) := by
  induction ws generalizing s k with
  | nil => rfl
  | cons w ws ih =>
    simp only [List.length_cons] at hk
    obtain ⟨k, rfl⟩ : ∃ n, k = n + 1 := ⟨k - 1, by omega⟩
    have hrest := ih (captured w s) (k := k) (by omega) (by omega)
    rw [captured_core_cursor, slotAfter_succ] at hrest
    rw [capturedAll_cons, hrest, memRead_captured_other w s (slotAfter_ne _ (by omega) hlt)]

/-- The word of one of the last 32 transactions stands in the slot that the cursor had then. -/
theorem memRead_capturedAll_reached (ws : List Word) (s : State) {k : Nat} (hk : k < ws.length)
    (hlast : ws.length ≤ k + 32) :
    memRead (capturedAll ws s).core.buf (slotAfter s.core.cursor k) = ws[k] := by
  induction ws generalizing s k with
  | nil => simp at hk
  | cons w ws ih =>
    simp only [List.length_cons] at hk hlast
    cases k with
    | zero =>
      have hrest := memRead_capturedAll_notReached ws (captured w s) (k := 31) (by omega) (by decide)
      rw [captured_core_cursor, slotAfter_succ, slotAfter_add_32 _ 0, slotAfter_zero, memRead_captured_same] at hrest
      simpa using hrest
    | succ k =>
      have hrest := ih (captured w s) (k := k) (by omega) (by omega)
      rw [captured_core_cursor, slotAfter_succ] at hrest
      simpa using hrest

/-- Settles O24: each transaction captures its word and moves the cursor on by one. -/
theorem ringHoldsTheLastTransactions : Obligations.RingHoldsTheLastTransactions := by
  intro ws s
  refine ⟨capturedAll ws s, runOps_flatMap_expandWord ws s, ?_, ?_, ?_⟩
  · exact congrArg Fin.val (capturedAll_core_cursor ws s)
  · exact fun k hk hlast => memRead_capturedAll_reached ws s hk hlast
  · exact fun k hk hlt => memRead_capturedAll_notReached ws s hk hlt

end Sys2Proof.Machine

/-! ## The packet validator / extractor (R92 to R108) -/

namespace Sys2Proof.Machine

open Sys2Proof.Spec

/-! ### Which words count, and what a word that counts does (R96 to R101) -/

/-- The word takes part in the scan: a command-5 word, and the scan has started or starts here (R96, R97). -/
def Scan.Counts (st : Scan) (w : Word) : Prop := cmdOf w = 5#3 ∧ (st.started = true ∨ addrOf w = 0#6)

theorem examine_of_not_counts {st : Scan} {w : Word} (h : ¬ st.Counts w) : st.examine w = .goOn st := by
  by_cases hw : cmdOf w = 5#3
  · obtain ⟨hs, ha⟩ := not_or.1 fun hc => h ⟨hw, hc⟩
    exact examine_beforeStart (Bool.eq_false_of_not_eq_true hs) ha
  · exact examine_otherCommand hw

theorem examine_outOfTurn {st : Scan} {w : Word} (hc : st.Counts w) (ha : (addrOf w).toNat ≠ st.expected) :
    st.examine w = .done .notFound := by
  rw [examine_counts hc.1 hc.2, if_pos ha]

theorem examine_last {st : Scan} {w : Word} (hc : st.Counts w) (ha : (addrOf w).toNat = st.expected)
    (h30 : st.expected = 30) : st.examine w = .done (.found (st.accept w).slot) := by
  rw [examine_counts hc.1 hc.2, if_neg (not_not.2 ha), if_pos ((BitVec.toNat_inj (y := 30#6)).1 (ha.trans h30))]

theorem examine_inTurn {st : Scan} {w : Word} (hc : st.Counts w) (ha : (addrOf w).toNat = st.expected)
    (h30 : st.expected ≠ 30) : st.examine w = .goOn (st.accept w) := by
  have hne : addrOf w ≠ 30#6 := fun h => h30 (ha.symm.trans (congrArg BitVec.toNat h))
  rw [examine_counts hc.1 hc.2, if_neg (not_not.2 ha), if_neg hne]

/-- Settles O39: such a word counts and is out of turn. -/
theorem outOfTurnWordEndsTheScan : Obligations.OutOfTurnWordEndsTheScan := by
  intro st w rest hs hw ha
  have hdone := examine_outOfTurn ⟨hw, .inl hs⟩ ha
  exact ⟨run_cons_done hdone, examined_cons_done hdone⟩

/-! ### Words that a scan does not see (R92, R96, R106) -/

/-- A scan gives the same result when the words with another command are left out (R96). -/
theorem run_filter_command5 (st : Scan) (ws : List Word) :
    st.run (ws.filter fun w => decide (cmdOf w = 5#3)) = st.run ws := by
  induction ws generalizing st with
  | nil => rfl
  | cons w ws ih =>
    by_cases hw : cmdOf w = 5#3
    · rw [List.filter_cons_of_pos (by simpa using hw)]
      cases hv : st.examine w with
      | goOn st' => rw [run_cons_goOn hv, run_cons_goOn hv, ih]
      | done r => rw [run_cons_done hv, run_cons_done hv]
    · rw [List.filter_cons_of_neg (by simpa using hw), run_cons_goOn (examine_otherCommand hw), ih]

/-- Settles O38: each result is that of the command-5 words alone. -/
theorem otherCommandsAreTransparent : Obligations.OtherCommandsAreTransparent := by
  intro a b hfilter
  calc extract a = Scan.start.run (a.toList.filter fun w => decide (cmdOf w = 5#3)) :=
        (run_filter_command5 _ _).symm
    _ = Scan.start.run (b.toList.filter fun w => decide (cmdOf w = 5#3)) := by rw [hfilter]
    _ = extract b := run_filter_command5 _ _

theorem examined_le_length (st : Scan) (ws : List Word) : st.examined ws ≤ ws.length := by
  induction ws generalizing st with
  | nil => simp [Scan.examined]
  | cons w ws ih =>
    cases hv : st.examine w with
    | goOn st' => rw [examined_cons_goOn hv]; exact Nat.succ_le_succ (ih st')
    | done r => rw [examined_cons_done hv]; simp

/-- Two lists of one length that agree on the words that the first one's scan examines give the same result. -/
theorem run_eq_of_agree_on_examined {st : Scan} {as bs : List Word} (hlen : as.length = bs.length)
    (h : ∀ j < st.examined as, as[j]? = bs[j]?) : st.run as = st.run bs := by
  induction as generalizing st bs with
  | nil => rw [List.length_eq_zero_iff.1 hlen.symm]
  | cons a as ih =>
    cases bs with
    | nil => simp at hlen
    | cons b bs =>
      cases hv : st.examine a with
      | done r =>
        have hab : a = b := by simpa using h 0 (by simp [examined_cons_done hv])
        rw [run_cons_done hv, run_cons_done (hab ▸ hv)]
      | goOn st' =>
        rw [examined_cons_goOn hv] at h
        have hab : a = b := by simpa using h 0 (Nat.succ_pos _)
        rw [run_cons_goOn hv, run_cons_goOn (hab ▸ hv)]
        exact ih (Nat.succ.inj hlen) fun j hj => by simpa using h (j + 1) (Nat.succ_lt_succ hj)

/-- Settles O42, by the two lemmas above for the lists of 32 words. -/
theorem wordsAfterTheStopDoNotMatter : Obligations.WordsAfterTheStopDoNotMatter := by
  intro a b
  have hbound : Scan.start.examined a.toList ≤ 32 := by simpa using examined_le_length Scan.start a.toList
  refine ⟨hbound, fun h => run_eq_of_agree_on_examined (by simp) fun j hj => ?_⟩
  have hj32 : j < 32 := hj.trans_le hbound
  simpa [hj32] using h ⟨j, hj32⟩ hj

/-! ### The packets a scan has accepted (R94, R97 to R101) -/

/-- What O37 says of a snapshot in which EXTRACT finds `slot`: the 16 packets of a sequence stand at the indices
`idx`, which are the first address-0 packet and the command-5 words after it, and carry the slots' data (R103). -/
def CompleteRun (snap : FrameBuffer) (slot : DigitSlots) (idx : Fin 16 → Fin 32) : Prop :=
  StrictMono idx ∧
    (∀ k : Fin 16, IsPacket (memRead snap (idx k)) (2 * k.val)) ∧
    (∀ j : Fin 32, j < idx 0 → ¬ IsPacket (memRead snap j) 0) ∧
    (∀ j : Fin 32, idx 0 < j → j < idx 15 → cmdOf (memRead snap j) = 5#3 → ∃ k, idx k = j) ∧
    (∀ k : Fin 16, slot[k.val] = dataOf (memRead snap (idx k)) &&& (if k.val < 8 then 0x77#8 else 0xFF#8))

/-- The working variables `st` after the first `n` words of the snapshot, when the packets accepted so far, one for
each `m < st.k`, stand at the indices `idx m`. -/
structure Tracks (snap : FrameBuffer) (idx : Fin 16 → Fin 32) (n : Nat) (st : Scan) : Prop where
  expected : st.expected = 2 * st.k
  started : st.started = true ↔ 0 < st.k
  before : ∀ m : Fin 16, m.val < st.k → (idx m).val < n
  increasing : ∀ l m : Fin 16, l < m → m.val < st.k → idx l < idx m
  packet : ∀ m : Fin 16, m.val < st.k → IsPacket (memRead snap (idx m)) (2 * m.val)
  /-- Every command-5 word so far has been accepted, or was skipped before the start (R97). -/
  seen : ∀ j : Fin 32, j.val < n → cmdOf (memRead snap j) = 5#3 →
    (∃ m : Fin 16, m.val < st.k ∧ idx m = j) ∨ (addrOf (memRead snap j) ≠ 0#6 ∧ (0 < st.k → j < idx 0))
  slot : ∀ m : Fin 16, m.val < st.k → st.slot[m.val] = maskedData (memRead snap (idx m))

theorem isPacket_zero_iff (w : Word) : IsPacket w 0 ↔ cmdOf w = 5#3 ∧ addrOf w = 0#6 :=
  and_congr_right fun _ => BitVec.toNat_inj (y := 0#6)

/-- The mask of a packet's address is the mask of its digit slot (R65, R99). -/
theorem maskedData_of_isPacket {w : Word} {m : Nat} (h : IsPacket w (2 * m)) :
    maskedData w = dataOf w &&& (if m < 8 then 0x77#8 else 0xFF#8) := by
  rw [maskedData, dataMask, h.2]
  congr 1
  exact if_congr (by omega) rfl rfl

section Tracked

variable {snap : FrameBuffer} {slot : DigitSlots} {idx : Fin 16 → Fin 32} {n : Nat} {i : Fin 32} {st : Scan}

theorem tracks_start (snap : FrameBuffer) (idx : Fin 16 → Fin 32) : Tracks snap idx 0 Scan.start where
  expected := rfl
  started := by simp [Scan.start]
  before _ hm := absurd hm (Nat.not_lt_zero _)
  increasing _ _ _ hm := absurd hm (Nat.not_lt_zero _)
  packet _ hm := absurd hm (Nat.not_lt_zero _)
  seen _ hj := absurd hj (Nat.not_lt_zero _)
  slot _ hm := absurd hm (Nat.not_lt_zero _)

theorem Tracks.counts_iff (h : Tracks snap idx n st) (w : Word) :
    st.Counts w ↔ cmdOf w = 5#3 ∧ (0 < st.k ∨ addrOf w = 0#6) := by
  rw [Scan.Counts, h.started]

/-- The packet whose turn it is counts, at the start too (R97). -/
theorem Tracks.inTurn_iff (h : Tracks snap idx n st) (w : Word) :
    st.Counts w ∧ (addrOf w).toNat = st.expected ↔ IsPacket w (2 * st.k) := by
  rw [h.counts_iff, h.expected]
  refine ⟨fun ⟨hc, ha⟩ => ⟨hc.1, ha⟩, fun hp => ⟨⟨hp.1, ?_⟩, hp.2⟩⟩
  rcases Nat.eq_zero_or_pos st.k with h0 | hpos
  · rw [h0] at hp
    exact .inr ((isPacket_zero_iff w).1 hp).2
  · exact .inl hpos

/-- A word that does not count changes nothing. -/
theorem Tracks.skip (h : Tracks snap idx i st) (hc : ¬ st.Counts (memRead snap i)) :
    Tracks snap idx (i + 1) st where
  expected := h.expected
  started := h.started
  before m hm := (h.before m hm).trans (Nat.lt_succ_self _)
  increasing := h.increasing
  packet := h.packet
  slot := h.slot
  seen := by
    intro j hj hw
    rcases Nat.lt_succ_iff_lt_or_eq.1 hj with hlt | heq
    · exact h.seen j hlt hw
    · obtain rfl := Fin.ext heq
      obtain ⟨hk, ha⟩ := not_or.1 fun hor => hc ((h.counts_iff _).2 ⟨hw, hor⟩)
      exact .inr ⟨ha, fun hpos => absurd hpos hk⟩

/-- An accepted packet takes the next place among the indices. -/
theorem Tracks.accept (h : Tracks snap idx i st) (hk : st.k < 16) (hp : IsPacket (memRead snap i) (2 * st.k)) :
    Tracks snap (Function.update idx ⟨st.k, hk⟩ i) (i + 1) (st.accept (memRead snap i)) := by
  have hold : ∀ m : Fin 16, m.val < st.k → Function.update idx ⟨st.k, hk⟩ i m = idx m := fun m hm =>
    Function.update_of_ne (fun he => hm.ne (congrArg Fin.val he)) _ _
  have hnew : Function.update idx ⟨st.k, hk⟩ i ⟨st.k, hk⟩ = i := Function.update_self _ _ _
  have hcases : ∀ m : Fin 16, m.val < st.k + 1 → m.val < st.k ∨ m = ⟨st.k, hk⟩ := fun m hm =>
    (Nat.lt_succ_iff_lt_or_eq.1 hm).imp_right fun he => Fin.ext he
  constructor
  case expected => rw [accept_expected, accept_k, h.expected, Nat.mul_succ]
  case started => simp
  case before =>
    intro m hm
    rcases hcases m hm with hlt | rfl
    · rw [hold m hlt]; exact (h.before m hlt).trans (Nat.lt_succ_self _)
    · rw [hnew]; exact Nat.lt_succ_self _
  case increasing =>
    intro l m hlm hm
    rcases hcases m hm with hlt | rfl
    · rw [hold m hlt, hold l (lt_trans hlm hlt)]; exact h.increasing l m hlm hlt
    · rw [hnew, hold l hlm]; exact h.before l hlm
  case packet =>
    intro m hm
    rcases hcases m hm with hlt | rfl
    · rw [hold m hlt]; exact h.packet m hlt
    · rw [hnew]; exact hp
  case slot =>
    intro m hm
    rcases hcases m hm with hlt | rfl
    · rw [hold m hlt, ← h.slot m hlt]
      simp [Vector.getElem_setIfInBounds_ne, hlt.ne']
    · rw [hnew]; simp
  case seen =>
    intro j hj hw
    rcases Nat.lt_succ_iff_lt_or_eq.1 hj with hlt | heq
    · rcases h.seen j hlt hw with ⟨m, hm, rfl⟩ | ⟨ha, hbefore⟩
      · exact .inl ⟨m, Nat.lt_succ_of_lt hm, hold m hm⟩
      · refine .inr ⟨ha, fun _ => ?_⟩
        rcases Nat.eq_zero_or_pos st.k with h0 | hpos
        · rw [show (0 : Fin 16) = ⟨st.k, hk⟩ from Fin.ext h0.symm, hnew]; exact hlt
        · rw [hold 0 hpos]; exact hbefore hpos
    · exact .inl ⟨⟨st.k, hk⟩, Nat.lt_succ_self _, hnew.trans (Fin.ext heq).symm⟩

/-! ### A found sequence is a complete run (R103) -/

/-- Once 16 packets are accepted, they are a complete run with the slots stored. -/
theorem Tracks.completeRun (h : Tracks snap idx n st) (hk : st.k = 16) : CompleteRun snap st.slot idx := by
  have hall : ∀ m : Fin 16, m.val < st.k := fun m => m.isLt.trans_eq hk.symm
  refine ⟨fun l m hlm => h.increasing l m hlm (hall m), fun m => h.packet m (hall m), ?_, ?_, ?_⟩
  · intro j hj hp
    obtain ⟨hw, ha⟩ := (isPacket_zero_iff _).1 hp
    rcases h.seen j (lt_trans hj (h.before 0 (hall 0))) hw with ⟨m, hm, rfl⟩ | ⟨hne, -⟩
    · have hm0 : 2 * m.val = 0 := (h.packet m hm).2.symm.trans hp.2
      rw [show m = 0 from Fin.ext (by simpa using hm0)] at hj
      exact lt_irrefl _ hj
    · exact hne ha
  · intro j h0 h15 hw
    rcases h.seen j (lt_trans h15 (h.before 15 (hall 15))) hw with ⟨m, -, hm⟩ | ⟨-, hbefore⟩
    · exact ⟨m, hm⟩
    · exact absurd (hbefore (hall 0)) h0.not_gt
  · intro m
    rw [h.slot m (hall m), maskedData_of_isPacket (h.packet m (hall m))]

/-- The snapshot and the indices fix the slots of a complete run. -/
theorem completeRun_slot_unique {slot' : DigitSlots} (h : CompleteRun snap slot idx)
    (h' : CompleteRun snap slot' idx) : slot = slot' := by
  obtain ⟨-, -, -, -, hslot⟩ := h
  obtain ⟨-, -, -, -, hslot'⟩ := h'
  exact Vector.ext fun k hk => (hslot ⟨k, hk⟩).trans (hslot' ⟨k, hk⟩).symm

theorem toList_drop_cons (snap : FrameBuffer) (i : Fin 32) :
    snap.toList.drop i = memRead snap i :: snap.toList.drop (i + 1) := by
  rw [List.drop_eq_getElem_cons (by simp)]
  rfl

theorem toList_drop_of_le (snap : FrameBuffer) (hn : 32 ≤ n) : snap.toList.drop n = [] :=
  List.drop_eq_nil_of_le (by simpa using hn)

/-- The rest of a scan finds a sequence only where there is a complete run. -/
theorem Tracks.completeRun_of_run_found (h : Tracks snap idx n st) (hk : st.k < 16)
    (hfound : st.run (snap.toList.drop n) = .found slot) : ∃ idx', CompleteRun snap slot idx' := by
  induction hr : 32 - n generalizing n st idx with
  | zero =>
    rw [toList_drop_of_le snap (by omega), run_nil] at hfound
    cases hfound
  | succ r ih =>
    obtain ⟨i, rfl⟩ : ∃ i : Fin 32, i.val = n := ⟨⟨n, by omega⟩, rfl⟩
    rw [toList_drop_cons] at hfound
    by_cases hc : st.Counts (memRead snap i)
    · by_cases ha : (addrOf (memRead snap i)).toNat = st.expected
      · have haccept := h.accept hk ((h.inTurn_iff _).1 ⟨hc, ha⟩)
        have hexpected := h.expected
        by_cases h30 : st.expected = 30
        · rw [run_cons_done (examine_last hc ha h30)] at hfound
          cases hfound
          exact ⟨_, haccept.completeRun (by rw [accept_k]; omega)⟩
        · rw [run_cons_goOn (examine_inTurn hc ha h30)] at hfound
          exact ih haccept (by rw [accept_k]; omega) hfound (by omega)
      · rw [run_cons_done (examine_outOfTurn hc ha)] at hfound
        cases hfound
    · rw [run_cons_goOn (examine_of_not_counts hc)] at hfound
      exact ih (h.skip hc) hk hfound (by omega)

/-! ### A complete run is found (R103, R108) -/

/-- The scan has not passed the next packet of a complete run. -/
theorem Tracks.le_next (h : Tracks snap idx n st) (hk : st.k < 16) (hrun : CompleteRun snap slot idx) :
    n ≤ (idx ⟨st.k, hk⟩).val := by
  obtain ⟨hmono, hpacket, -, -, -⟩ := hrun
  have hp := hpacket ⟨st.k, hk⟩
  by_contra! hlt
  rcases h.seen _ hlt hp.1 with ⟨m, hm, he⟩ | ⟨ha, hbefore⟩
  · exact hm.ne (congrArg Fin.val (hmono.injective he))
  · rcases ((h.inTurn_iff _).2 hp).1.2 with hs | h0
    · exact (hmono.monotone (Fin.zero_le _)).not_gt (hbefore (h.started.1 hs))
    · exact ha h0

/-- Before the next packet of a complete run no word counts. -/
theorem Tracks.not_counts (h : Tracks snap idx i st) (hk : st.k < 16) (hrun : CompleteRun snap slot idx)
    (hi : i < idx ⟨st.k, hk⟩) : ¬ st.Counts (memRead snap i) := by
  obtain ⟨hmono, -, hfirst, hbetween, -⟩ := hrun
  rw [h.counts_iff]
  rintro ⟨hw, hor⟩
  rcases Nat.eq_zero_or_pos st.k with h0 | hpos
  · rw [show (⟨st.k, hk⟩ : Fin 16) = 0 from Fin.ext h0] at hi
    exact hfirst i hi ((isPacket_zero_iff _).2 ⟨hw, hor.resolve_left h0.not_gt⟩)
  · obtain ⟨m, rfl⟩ := hbetween i (h.before 0 hpos) (hi.trans_le (hmono.monotone (Fin.le_last _))) hw
    exact lt_irrefl _ (h.before m (hmono.lt_iff_lt.1 hi))

/-- The rest of a scan finds the sequence of a complete run. -/
theorem Tracks.run_found (h : Tracks snap idx n st) (hk : st.k < 16) (hrun : CompleteRun snap slot idx) :
    st.run (snap.toList.drop n) = .found slot := by
  have hnext := h.le_next hk hrun
  induction hr : 32 - n generalizing n st with
  | zero => omega
  | succ r ih =>
    obtain ⟨i, rfl⟩ : ∃ i : Fin 32, i.val = n := ⟨⟨n, by omega⟩, rfl⟩
    rw [toList_drop_cons]
    rcases hnext.lt_or_eq with hlt | heq
    · have hc := h.not_counts hk hrun hlt
      rw [run_cons_goOn (examine_of_not_counts hc)]
      exact ih (h.skip hc) hk hlt (by omega)
    · obtain rfl : i = idx ⟨st.k, hk⟩ := Fin.ext heq
      have hp := hrun.2.1 ⟨st.k, hk⟩
      obtain ⟨hc, ha⟩ := (h.inTurn_iff _).2 hp
      have hexpected := h.expected
      have haccept := h.accept hk hp
      rw [Function.update_eq_self] at haccept
      by_cases h30 : st.expected = 30
      · have hsame := haccept.completeRun (by rw [accept_k]; omega)
        rw [run_cons_done (examine_last hc ha h30), completeRun_slot_unique hsame hrun]
      · have hk' : (st.accept (memRead snap (idx ⟨st.k, hk⟩))).k < 16 := by rw [accept_k]; omega
        rw [run_cons_goOn (examine_inTurn hc ha h30)]
        exact ih haccept hk' (haccept.le_next hk' hrun) (by omega)

end Tracked

/-- EXTRACT finds a sequence exactly where there is a complete run (R103, R108). -/
theorem extract_eq_found_iff (snap : FrameBuffer) (slot : DigitSlots) :
    extract snap = .found slot ↔ ∃ idx, CompleteRun snap slot idx where
  mp h := (tracks_start snap fun _ => 0).completeRun_of_run_found (by decide) h
  mpr := fun ⟨idx, hrun⟩ => (tracks_start snap idx).run_found (by decide) hrun

/-- Settles O37: `CompleteRun` is its right side. -/
theorem extractFindsExactlyTheCompleteRun : Obligations.ExtractFindsExactlyTheCompleteRun :=
  extract_eq_found_iff

/-! ### Snapshots without a complete run (R104, R105) -/

theorem extract_eq_notFound {snap : FrameBuffer} (h : ∀ slot idx, ¬ CompleteRun snap slot idx) :
    extract snap = .notFound := by
  cases hx : extract snap with
  | notFound => rfl
  | found slot =>
    obtain ⟨idx, hrun⟩ := (extract_eq_found_iff snap slot).1 hx
    exact absurd hrun (h slot idx)

/-- Settles O40: the second address-0 packet would stand within the run. -/
theorem scanNeverRestarts : Obligations.ScanNeverRestarts := by
  intro snap i j hij hi hj h30
  refine extract_eq_notFound fun slot idx ⟨_, hpacket, hfirst, hbetween, _⟩ => ?_
  have h0i : idx 0 ≤ i := not_lt.1 fun hlt => hfirst i hlt hi
  have hj15 : j ≤ idx 15 := not_lt.1 fun hlt => h30 _ hlt (hpacket 15)
  have hat : ∀ k, idx k = j → k = 0 := by
    rintro k rfl
    have hk0 : 2 * k.val = 0 := (hpacket k).2.symm.trans hj.2
    exact Fin.ext (by simpa using hk0)
  have hne15 : j ≠ idx 15 := fun he => absurd (hat 15 he.symm) (by decide)
  obtain ⟨k, hk⟩ := hbetween j (h0i.trans_lt hij) (lt_of_le_of_ne hj15 hne15) hj.1
  rw [hat k hk] at hk
  exact (h0i.trans_lt hij).ne hk

/-- Settles O41: the 16 indices of a run fit between its first one and 31 only if that is at most 16. -/
theorem sequenceAcrossTheEndIsNotFound : Obligations.SequenceAcrossTheEndIsNotFound := by
  intro snap hnone
  refine extract_eq_notFound fun slot idx ⟨hmono, hpacket, _⟩ => hnone (idx 0) ?_ (hpacket 0)
  have hcard : Fintype.card (Fin 16) ≤ (Finset.Ici (idx 0)).card :=
    Finset.card_le_card_of_injOn idx
      (fun k _ => Finset.mem_coe.2 (Finset.mem_Ici.2 (hmono.monotone (Fin.zero_le k)))) hmono.injective.injOn
  rw [Fintype.card_fin, Fin.card_Ici] at hcard
  omega

end Sys2Proof.Machine

/-! ## The digit decoder (R109 to R129) -/

namespace Sys2Proof.Machine

open Sys2Proof.Spec

/-! ### Matching a table (R109 to R111) -/

/-- The digit whose entry in a table is the pattern: `LUT_VC` and `LUT_PE` are this search in their two tables. -/
def matchDigit {α : Type} [DecidableEq α] (v : Vector α 10) (c : α) : Option (Fin 10) :=
  digits.find? fun d => v[d.val] == c

theorem lutVC_eq_matchDigit (t : SegTables) (b : Byte) : lutVC t b = matchDigit t.vc b := rfl

theorem lutPE_eq_matchDigit (t : SegTables) (c : BitVec 7) : lutPE t c = matchDigit t.pe c := rfl

theorem mem_digits : ∀ d : Fin 10, d ∈ digits := by decide

section Matching

variable {α : Type} [DecidableEq α] {v : Vector α 10} {c : α} {d : Fin 10}

theorem getElem_of_matchDigit (h : matchDigit v c = some d) : v[d.val] = c := by
  simpa using List.find?_some h

theorem matchDigit_eq_none_iff : matchDigit v c = none ↔ ∀ d : Fin 10, v[d.val] ≠ c := by
  simp [matchDigit, mem_digits]

theorem matchDigit_eq_some_iff (hinj : ∀ d e : Fin 10, v[d.val] = v[e.val] → d = e) :
    matchDigit v c = some d ↔ v[d.val] = c := by
  refine ⟨getElem_of_matchDigit, fun hd => ?_⟩
  cases hm : matchDigit v c with
  | none => exact absurd hd (matchDigit_eq_none_iff.1 hm d)
  | some e => rw [hinj e d ((getElem_of_matchDigit hm).trans hd.symm)]

/-- A pattern counts as the digit whose entry it is, or as 0 (R111). -/
theorem digitOrZero_matchDigit (v : Vector α 10) (c : α) :
    (∃ d : Fin 10, v[d.val] = c ∧ digitOrZero (matchDigit v c) = d.val) ∨
      ((∀ d : Fin 10, v[d.val] ≠ c) ∧ digitOrZero (matchDigit v c) = 0) := by
  cases hm : matchDigit v c with
  | some d => exact .inl ⟨d, getElem_of_matchDigit hm, rfl⟩
  | none => exact .inr ⟨matchDigit_eq_none_iff.1 hm, rfl⟩

end Matching

theorem digitOrZero_le_nine (o : Option (Fin 10)) : digitOrZero o ≤ 9 := by
  cases o with
  | some d => exact Nat.le_of_lt_succ d.isLt
  | none => exact Nat.zero_le 9

theorem digVC_le_nine (t : SegTables) (b : Byte) : digVC t b ≤ 9 := digitOrZero_le_nine _

theorem digPE_le_nine (t : SegTables) (b : Byte) : digPE t b ≤ 9 := digitOrZero_le_nine _

/-! ### Code and flag bit of a power or energy byte (R67, R110) -/

@[simp] theorem peCode_toNat (b : Byte) : (peCode b).toNat = b.toNat / 2 := by
  rw [peCode, BitVec.extractLsb'_toNat, Nat.shiftRight_eq_div_pow]
  exact Nat.mod_eq_of_lt (by omega)

@[simp] theorem peCode_append (c : BitVec 7) (f : Bit) : peCode (c ++ f) = c := by
  apply BitVec.eq_of_toNat_eq
  rw [peCode_toNat, BitVec.toNat_append, ← Nat.shiftLeft_add_eq_or_of_lt f.isLt, Nat.shiftLeft_eq]
  omega

/-- Bit 0 is not part of the code. -/
@[simp] theorem peCode_and_0xFE (b : Byte) : peCode (b &&& 0xFE#8) = peCode b := by
  rw [peCode, BitVec.extractLsb'_and]
  exact BitVec.and_allOnes

@[simp] theorem peCode_or_0x01 (b : Byte) : peCode (b ||| 0x01#8) = peCode b := by
  rw [peCode, BitVec.extractLsb'_or]
  exact BitVec.or_zero

theorem lowBit_eq_ofBool (b : Byte) : lowBit b = BitVec.ofBool (b.getLsbD 0) := by
  ext i hi
  obtain rfl : i = 0 := by omega
  simp [lowBit]

theorem readsVC_digVC (t : SegTables) (b : Byte) : ReadsVC t b (digVC t b) := digitOrZero_matchDigit t.vc b

theorem readsPE_digPE (t : SegTables) (b : Byte) : ReadsPE t b (digPE t b) := by
  simpa only [ReadsPE, digPE, lutPE_eq_matchDigit, ← peCode_toNat, BitVec.toNat_inj, ne_eq]
    using digitOrZero_matchDigit t.pe (peCode b)

/-- Settles O44: an injective table holds a pattern at most once. -/
theorem tablesMatchExactEntries : Obligations.TablesMatchExactEntries := by
  intro t ht
  obtain ⟨hvc, hpe, -⟩ := (segTables_wellFormed_iff t).1 ht
  exact ⟨fun _ _ => matchDigit_eq_some_iff hvc, fun _ => matchDigit_eq_none_iff, fun _ _ => matchDigit_eq_some_iff hpe,
    fun _ => matchDigit_eq_none_iff, fun b => ⟨peCode_toNat b, rfl⟩⟩

/-- A table's own pattern counts as its digit (R123). -/
theorem digVC_of_entry {t : SegTables} (ht : t.wellFormed = true) {b : Byte} {d : Fin 10} (h : b = t.vc[d.val]) :
    digVC t b = d.val := by
  rw [digVC, ((tablesMatchExactEntries t ht).1 b d).2 h.symm, digitOrZero]

theorem digPE_of_entry {t : SegTables} (ht : t.wellFormed = true) {b : Byte} {d : Fin 10} {f : Bit}
    (h : b = t.pe[d.val] ++ f) : digPE t b = d.val := by
  obtain ⟨-, -, hlut, -⟩ := tablesMatchExactEntries t ht
  rw [digPE, (hlut (peCode b) d).2 (by rw [h, peCode_append]), digitOrZero]

/-! ### Accumulators (R111, R115, R119, R123) -/

theorem fourDigits_eq (d0 d1 d2 d3 : Nat) : fourDigits d0 d1 d2 d3 = d0 * 1000 + d1 * 100 + d2 * 10 + d3 := by
  simp [fourDigits]

theorem fourDigits_le {d0 d1 d2 d3 : Nat} (h0 : d0 ≤ 9) (h1 : d1 ≤ 9) (h2 : d2 ≤ 9) (h3 : d3 ≤ 9) :
    fourDigits d0 d1 d2 d3 ≤ 9999 := by
  rw [fourDigits_eq]
  omega

theorem accVC_le (t : SegTables) (slot : DigitSlots) (base : Fin 13) : accVC t slot base ≤ 9999 :=
  fourDigits_le (digVC_le_nine ..) (digVC_le_nine ..) (digVC_le_nine ..) (digVC_le_nine ..)

theorem accPE_le (t : SegTables) (slot : DigitSlots) (base : Fin 13) : accPE t slot base ≤ 9999 :=
  fourDigits_le (digPE_le_nine ..) (digPE_le_nine ..) (digPE_le_nine ..) (digPE_le_nine ..)

/-- The number that four bytes make, by the table and without the model's search. -/
theorem exists_readsVC_accVC (t : SegTables) (slot : DigitSlots) (base : Fin 13) :
    ∃ d0 d1 d2 d3 : Nat, ReadsVC t slot[base.val] d0 ∧ ReadsVC t slot[base.val + 1] d1 ∧
      ReadsVC t slot[base.val + 2] d2 ∧ ReadsVC t slot[base.val + 3] d3 ∧
      accVC t slot base = d0 * 1000 + d1 * 100 + d2 * 10 + d3 :=
  ⟨_, _, _, _, readsVC_digVC .., readsVC_digVC .., readsVC_digVC .., readsVC_digVC .., fourDigits_eq ..⟩

theorem exists_readsPE_accPE (t : SegTables) (slot : DigitSlots) (base : Fin 13) :
    ∃ d0 d1 d2 d3 : Nat, ReadsPE t slot[base.val] d0 ∧ ReadsPE t slot[base.val + 1] d1 ∧
      ReadsPE t slot[base.val + 2] d2 ∧ ReadsPE t slot[base.val + 3] d3 ∧
      accPE t slot base = d0 * 1000 + d1 * 100 + d2 * 10 + d3 :=
  ⟨_, _, _, _, readsPE_digPE .., readsPE_digPE .., readsPE_digPE .., readsPE_digPE .., fourDigits_eq ..⟩

/-- Settles O45, digit by digit. -/
theorem decodingRecoversTableDigits : Obligations.DecodingRecoversTableDigits := by
  intro t slot base d0 d1 d2 d3 ht
  refine ⟨fun h0 h1 h2 h3 => ?_, fun f0 f1 f2 f3 h0 h1 h2 h3 => ?_⟩
  · rw [accVC, digVC_of_entry ht h0, digVC_of_entry ht h1, digVC_of_entry ht h2, digVC_of_entry ht h3, fourDigits_eq]
    rfl
  · rw [accPE, digPE_of_entry ht h0, digPE_of_entry ht h1, digPE_of_entry ht h2, digPE_of_entry ht h3, fourDigits_eq]
    rfl

/-! ### Answers of the power and energy requests by their flag (R116, R117) -/

section Flags

variable {t : SegTables} {slot : DigitSlots}

theorem powerResponse_of_dp (h : slot[10].getLsbD 0 = true) :
    powerResponse t slot = ⟨0, BitVec.ofNat 32 (accPE t slot 8), 1, rne32 (accPE t slot 8) 10, zeroSlots⟩ := by
  have hflag : dpFlag slot = 1 := by rw [dpFlag, lowBit_eq_ofBool, h]; rfl
  simp [powerResponse, hflag, noSlots, zeroSlots]

theorem powerResponse_of_not_dp (h : slot[10].getLsbD 0 = false) :
    powerResponse t slot = ⟨0, BitVec.ofNat 32 (accPE t slot 8), 0, rne32 (accPE t slot 8) 1, zeroSlots⟩ := by
  have hflag : dpFlag slot = 0 := by rw [dpFlag, lowBit_eq_ofBool, h]; rfl
  simp [powerResponse, hflag, noSlots, zeroSlots]

theorem energyResponse_of_kilo (h : slot[15].getLsbD 0 = true) :
    energyResponse t slot =
      ⟨0, BitVec.ofNat 32 (accPE t slot 12), 1, BitVec.ofNat 32 (accPE t slot 12 * 1000), zeroSlots⟩ := by
  have hflag : kiloFlag slot = 1 := by rw [kiloFlag, lowBit_eq_ofBool, h]; rfl
  simp [energyResponse, hflag, noSlots, zeroSlots]

theorem energyResponse_of_not_kilo (h : slot[15].getLsbD 0 = false) :
    energyResponse t slot =
      ⟨0, BitVec.ofNat 32 (accPE t slot 12), 0, BitVec.ofNat 32 (accPE t slot 12), zeroSlots⟩ := by
  have hflag : kiloFlag slot = 0 := by rw [kiloFlag, lowBit_eq_ofBool, h]; rfl
  simp [energyResponse, hflag, noSlots, zeroSlots]

end Flags

/-! ### No overflow (R119) -/

/-- An accumulator or an energy is its own 32-bit word. -/
theorem toNat_ofNat_of_le {n : Nat} (h : n ≤ 9999000) : (BitVec.ofNat 32 n).toNat = n := by
  rw [BitVec.toNat_ofNat]
  omega

theorem energyResponse_value_toNat (t : SegTables) (slot : DigitSlots) :
    (energyResponse t slot).value.toNat = accPE t slot 12 * (if slot[15].getLsbD 0 then 1000 else 1) := by
  have hacc := accPE_le t slot 12
  cases hk : slot[15].getLsbD 0 with
  | true => rw [energyResponse_of_kilo hk, toNat_ofNat_of_le (by omega), if_pos rfl]
  | false => rw [energyResponse_of_not_kilo hk, toNat_ofNat_of_le (by omega), if_neg Bool.false_ne_true, Nat.mul_one]

theorem energyResponse_value_le (t : SegTables) (slot : DigitSlots) :
    (energyResponse t slot).value.toNat ≤ 9999000 := by
  have hacc := accPE_le t slot 12
  rw [energyResponse_value_toNat]
  split <;> omega

/-- Settles O46, from four digits of at most 9. -/
theorem decoderArithmeticDoesNotOverflow : Obligations.DecoderArithmeticDoesNotOverflow := by
  intro t slot base
  have hvc : ∀ base, (BitVec.ofNat 32 (accVC t slot base)).toNat = accVC t slot base := fun base =>
    toNat_ofNat_of_le ((accVC_le t slot base).trans (by decide))
  have hpe : ∀ base, (BitVec.ofNat 32 (accPE t slot base)).toNat = accPE t slot base := fun base =>
    toNat_ofNat_of_le ((accPE_le t slot base).trans (by decide))
  exact ⟨fun b => ⟨digVC_le_nine t b, digPE_le_nine t b⟩, accVC_le t slot base, accPE_le t slot base, hvc 0, hvc 4,
    hpe 8, hpe 12, energyResponse_value_toNat t slot, energyResponse_value_le t slot⟩

/-! ### What an accumulator depends on (R125 to R127) -/

theorem accPE_congr {a b : DigitSlots} (t : SegTables) (base : Fin 13)
    (h : ∀ k (hk : k < 4), peCode a[base.val + k] = peCode b[base.val + k]) : accPE t a base = accPE t b base := by
  have h0 := h 0 (by decide)
  have h1 := h 1 (by decide)
  have h2 := h 2 (by decide)
  have h3 := h 3 (by decide)
  simp only [Nat.add_zero] at h0
  simp only [accPE, digPE, h0, h1, h2, h3]

theorem accVC_congr {a b : DigitSlots} (t : SegTables) (base : Fin 13)
    (h : ∀ k (hk : k < 4), a[base.val + k] = b[base.val + k]) : accVC t a base = accVC t b base := by
  have h0 := h 0 (by decide)
  have h1 := h 1 (by decide)
  have h2 := h 2 (by decide)
  have h3 := h 3 (by decide)
  simp only [Nat.add_zero] at h0
  simp only [accVC, h0, h1, h2, h3]

/-- A byte with the same code in one digit slot makes the same number. -/
theorem accPE_set {x : Byte} (t : SegTables) (slot : DigitSlots) (base : Fin 13) {i : Nat} (hi : i < 16)
    (h : peCode x = peCode slot[i]) : accPE t (slot.set i x) base = accPE t slot base := by
  refine accPE_congr t base fun k hk => ?_
  rw [Vector.getElem_set]
  split
  next he => subst he; exact h
  next => rfl

/-- Settles O47: bit 0 of slot 10 is no part of a code. -/
theorem decimalPointFlagScalesByTenth : Obligations.DecimalPointFlagScalesByTenth := by
  rintro t slot acc rfl
  have hclear := accPE_set t slot 8 (by decide) (peCode_and_0xFE slot[10])
  have hset := accPE_set t slot 8 (by decide) (peCode_or_0x01 slot[10])
  constructor
  · exact powerResponse_of_not_dp (by simp)
  · rw [powerResponse_of_dp (by simp), hset, hclear]

/-- Settles O48: bit 0 of slot 15 is no part of a code. -/
theorem kiloFlagScalesByThousand : Obligations.KiloFlagScalesByThousand := by
  intro t slot
  have hclear := accPE_set t slot 12 (by decide) (peCode_and_0xFE slot[15])
  have hset := accPE_set t slot 12 (by decide) (peCode_or_0x01 slot[15])
  constructor
  · simp [energyResponse_value_toNat, hclear, hset, Nat.mul_comm]
  · rw [energyResponse_of_kilo (by simp), energyResponse_of_not_kilo (by simp), hset, hclear]

end Sys2Proof.Machine

/-! ## Rounding to binary32 (R10, R120) -/

namespace Sys2Proof.Machine

open Sys2Proof.Spec

/-! ### The finite binary32 words in order -/

/-- The value of the finite non-negative binary32 word with bits `n`, in units of `2^(-149)`. -/
def float32Units (n : Nat) : Nat :=
  if n / 2 ^ 23 = 0 then n else (2 ^ 23 + n % 2 ^ 23) * 2 ^ (n / 2 ^ 23 - 1)

theorem binary32_eq_float32Units (w : BitVec 32) : binary32 w = (float32Units w.toNat : ℚ) / 2 ^ 149 := by
  unfold binary32 float32Units
  by_cases he : w.toNat / 2 ^ 23 = 0
  · have hf : w.toNat % 2 ^ 23 = w.toNat := by omega
    rw [if_pos he, if_pos he, hf]
  · obtain ⟨e, he'⟩ : ∃ e, w.toNat / 2 ^ 23 = e + 1 := ⟨w.toNat / 2 ^ 23 - 1, by omega⟩
    simp only [he', Nat.add_sub_cancel, if_neg (Nat.succ_ne_zero e)]
    push_cast
    ring

/-- Adding a significand to an exponent field: a carry, where `m = 2^24`, gives the same value as the next exponent
with the least significand, so `rne32` may add the rounded significand as it is. -/
theorem float32Units_significand (E : Nat) {m : Nat} (hlo : 2 ^ 23 ≤ m) (hhi : m ≤ 2 ^ 24) :
    float32Units (E * 2 ^ 23 + m) = m * 2 ^ E := by
  unfold float32Units
  obtain hlt | rfl := hhi.lt_or_eq
  · have hdiv : (E * 2 ^ 23 + m) / 2 ^ 23 = E + 1 := by omega
    have hmod : 2 ^ 23 + (E * 2 ^ 23 + m) % 2 ^ 23 = m := by omega
    rw [hdiv, hmod, if_neg (Nat.succ_ne_zero E), Nat.add_sub_cancel]
  · have hdiv : (E * 2 ^ 23 + 2 ^ 24) / 2 ^ 23 = E + 2 := by omega
    have hmod : 2 ^ 23 + (E * 2 ^ 23 + 2 ^ 24) % 2 ^ 23 = 2 ^ 23 := by omega
    rw [hdiv, hmod, if_neg (Nat.succ_ne_zero _), show E + 2 - 1 = E + 1 by omega]
    ring

theorem float32Units_of_le {n : Nat} (h : n ≤ 2 ^ 24) : float32Units n = n := by
  obtain hlt | hle := Nat.lt_or_ge n (2 ^ 23)
  · exact if_pos (Nat.div_eq_of_lt hlt)
  · simpa using float32Units_significand 0 hle h

/-- Every word from `2^23` on has an exponent and a significand with its leading bit. -/
theorem exists_significand {n : Nat} (h : 2 ^ 23 ≤ n) : ∃ E m, n = E * 2 ^ 23 + m ∧ 2 ^ 23 ≤ m ∧ m < 2 ^ 24 :=
  ⟨n / 2 ^ 23 - 1, 2 ^ 23 + n % 2 ^ 23, by omega, by omega, by omega⟩

theorem float32Units_strictMono : StrictMono float32Units := by
  refine strictMono_nat_of_lt_succ fun n => ?_
  obtain hlt | hle := Nat.lt_or_ge n (2 ^ 23)
  · rw [float32Units_of_le (by omega), float32Units_of_le (by omega)]
    exact Nat.lt_succ_self n
  · obtain ⟨E, m, rfl, hlo, hhi⟩ := exists_significand hle
    rw [Nat.add_assoc, float32Units_significand E hlo hhi.le, float32Units_significand E (by omega) (by omega)]
    exact Nat.mul_lt_mul_of_pos_right (Nat.lt_succ_self m) (by positivity)

/-! ### Nearest by midpoints -/

/-- Of two points, the one on `x`'s side of their midpoint is strictly nearer to `x`. -/
theorem abs_sub_lt_of_midpoint {a b x : ℚ} (h : (a < b ∧ 2 * x < a + b) ∨ (b < a ∧ a + b < 2 * x)) :
    |a - x| < |b - x| := by
  rcases h with ⟨hab, hmid⟩ | ⟨hba, hmid⟩
  · exact (abs_lt.2 ⟨by linarith, by linarith⟩).trans_le (le_abs_self _)
  · exact (abs_lt.2 ⟨by linarith, by linarith⟩).trans_le (neg_le_abs _)

/-- A word is the unique nearest to `num ÷ den` when that quotient lies strictly between the midpoints with the words
beside it. -/
theorem float32Units_nearest {n num den : Nat} (hden : 0 < den)
    (hup : 2 * (num * 2 ^ 149) < (float32Units n + float32Units (n + 1)) * den)
    (hlow : ∀ p < n, (float32Units p + float32Units n) * den < 2 * (num * 2 ^ 149)) {p : Nat} (hp : p ≠ n) :
    |(float32Units n : ℚ) / 2 ^ 149 - (num : ℚ) / den| < |(float32Units p : ℚ) / 2 ^ 149 - (num : ℚ) / den| := by
  have hden' : (0 : ℚ) < den := Nat.cast_pos.2 hden
  apply abs_sub_lt_of_midpoint
  simp only [← add_div, ← mul_div_assoc]
  rw [div_lt_div_iff₀ hden' (by positivity), div_lt_div_iff₀ (by positivity) hden',
    div_lt_div_iff_of_pos_right (by positivity), div_lt_div_iff_of_pos_right (by positivity)]
  norm_cast
  obtain hlt | hgt := Nat.lt_or_gt_of_ne hp
  · refine .inr ⟨float32Units_strictMono hlt, ?_⟩
    have := hlow p hlt
    linarith
  · refine .inl ⟨float32Units_strictMono hgt, ?_⟩
    have hle := float32Units_strictMono.monotone (Nat.succ_le_of_lt hgt)
    calc 2 * num * 2 ^ 149 = 2 * (num * 2 ^ 149) := by ring
      _ < _ := hup
      _ ≤ _ := Nat.mul_le_mul_right den (Nat.add_le_add_left hle _)

/-! ### The exponent -/

/-- The two shifts of `floorLog2`'s comparison, as one power. -/
theorem shifted_le_iff_zpow_le {num den : Nat} (hden : 0 < den) (e : Int) :
    den * 2 ^ e.toNat ≤ num * 2 ^ (-e).toNat ↔ (2 : ℚ) ^ e ≤ (num : ℚ) / den := by
  have hden' : (0 : ℚ) < den := Nat.cast_pos.2 hden
  rw [le_div_iff₀ hden']
  obtain ⟨k, rfl | rfl⟩ := e.eq_nat_or_neg
  · simp only [Int.toNat_natCast, Int.toNat_neg_natCast, pow_zero, mul_one, zpow_natCast]
    rw [← Nat.cast_le (α := ℚ), mul_comm den]
    push_cast
    rfl
  · simp only [Int.toNat_natCast, Int.toNat_neg_natCast, neg_neg, pow_zero, mul_one, zpow_neg, zpow_natCast]
    rw [inv_mul_le_iff₀ (by positivity), ← Nat.cast_le (α := ℚ), mul_comm num]
    push_cast
    rfl

/-- `floorLog2` is the integer logarithm of the quotient. -/
theorem floorLog2_eq_log {num den : Nat} (hnum : 0 < num) (hden : 0 < den) :
    floorLog2 num den = Int.log 2 ((num : ℚ) / den) := by
  have hnum' : (0 : ℚ) < num := Nat.cast_pos.2 hnum
  have hden' : (0 : ℚ) < den := Nat.cast_pos.2 hden
  have hpos : (0 : ℚ) < (num : ℚ) / den := div_pos hnum' hden'
  set a := Nat.log2 num
  set b := Nat.log2 den
  have hnumlo : (2 : ℚ) ^ a ≤ num := by exact_mod_cast Nat.log2_self_le hnum.ne'
  have hnumhi : (num : ℚ) < 2 ^ (a + 1) := by exact_mod_cast Nat.lt_log2_self
  have hdenlo : (2 : ℚ) ^ b ≤ den := by exact_mod_cast Nat.log2_self_le hden.ne'
  have hdenhi : (den : ℚ) < 2 ^ (b + 1) := by exact_mod_cast Nat.lt_log2_self
  have hlo : (a : Int) - b - 1 ≤ Int.log 2 ((num : ℚ) / den) := by
    rw [← Int.zpow_le_iff_le_log one_lt_two hpos, Nat.cast_ofNat, sub_sub, zpow_sub₀ two_ne_zero]
    exact div_le_div₀ hnum'.le hnumlo hden' hdenhi.le
  have hhi : Int.log 2 ((num : ℚ) / den) < (a : Int) - b + 1 := by
    rw [← Int.lt_zpow_iff_log_lt one_lt_two hpos, Nat.cast_ofNat, sub_add_eq_add_sub, zpow_sub₀ two_ne_zero]
    exact div_lt_div₀ hnumhi hdenlo (by positivity) (by positivity)
  have htest := (shifted_le_iff_zpow_le hden ((a : Int) - b)).trans (Int.zpow_le_iff_le_log one_lt_two hpos)
  simp only [floorLog2]
  split
  next h => have := htest.1 h; omega
  next h => have := mt htest.2 h; omega

/-! ### The significand -/

/-- Away from ties `roundEven` is less than half a unit from the quotient. -/
theorem roundEven_bounds {n d : Nat} (hd : 0 < d) (htie : 2 * (n % d) ≠ d) :
    2 * n < (2 * roundEven n d + 1) * d ∧ 2 * roundEven n d * d < 2 * n + d := by
  have hdivmod := Nat.div_add_mod' n d
  have hmod := Nat.mod_lt n hd
  simp only [roundEven]
  generalize n / d = q at *
  generalize n % d = r at *
  split
  next h =>
    have habove : d < 2 * r := h.resolve_right fun htied => htie htied.1
    constructor <;> linarith
  next h =>
    have hbelow : 2 * r < d := lt_of_le_of_ne (not_lt.1 (not_or.1 h).1) htie
    constructor <;> linarith

/-- A quotient in `[2^23, 2^24)` rounds to a significand with its leading bit, or to `2^24`. -/
theorem roundEven_mem_significands {n d : Nat} (hlo : 2 ^ 23 * d ≤ n) (hhi : n < 2 ^ 24 * d)
    (htie : 2 * (n % d) ≠ d) : 2 ^ 23 ≤ roundEven n d ∧ roundEven n d ≤ 2 ^ 24 := by
  have hd : 0 < d := Nat.pos_of_mul_pos_left (Nat.zero_lt_of_lt hhi)
  obtain ⟨hup, hlow⟩ := roundEven_bounds hd htie
  constructor
  · have : 2 ^ 24 * d < (2 * roundEven n d + 1) * d := by linarith
    have := Nat.lt_of_mul_lt_mul_right this
    omega
  · have : 2 * roundEven n d * d < (2 ^ 25 + 1) * d := by linarith
    have := Nat.lt_of_mul_lt_mul_right this
    omega

/-- The next word is at least one unit of the last place above. -/
theorem le_float32Units_significand_succ (E : Nat) {m : Nat} (hlo : 2 ^ 23 ≤ m) (hhi : m ≤ 2 ^ 24) :
    (m + 1) * 2 ^ E ≤ float32Units (E * 2 ^ 23 + m + 1) := by
  obtain hlt | rfl := hhi.lt_or_eq
  · rw [Nat.add_assoc, float32Units_significand E (Nat.le_succ_of_le hlo) hlt]
  · have hcarry := float32Units_significand (E + 1) (m := 2 ^ 23 + 1) (by decide) (by decide)
    rw [show E * 2 ^ 23 + 2 ^ 24 + 1 = (E + 1) * 2 ^ 23 + (2 ^ 23 + 1) by ring, hcarry, pow_succ' 2 E, ← mul_assoc]
    exact Nat.mul_le_mul_right _ (by decide)

/-- A word below is at least one unit of the last place below, or it is below the least significand. -/
theorem float32Units_lt_significand {E m p : Nat} (hlo : 2 ^ 23 ≤ m) (hhi : m ≤ 2 ^ 24) (hp : p < E * 2 ^ 23 + m) :
    float32Units p + 2 ^ E ≤ m * 2 ^ E ∨ (m = 2 ^ 23 ∧ float32Units p < m * 2 ^ E) := by
  obtain rfl | hlt := hlo.eq_or_lt
  · exact .inr ⟨rfl, (float32Units_strictMono hp).trans_eq (float32Units_significand E le_rfl hhi)⟩
  · obtain ⟨l, rfl⟩ : ∃ l, m = l + 1 := ⟨m - 1, by omega⟩
    have hle : float32Units p ≤ float32Units (E * 2 ^ 23 + l) :=
      float32Units_strictMono.monotone (Nat.le_of_lt_succ hp)
    rw [float32Units_significand E (Nat.le_of_lt_succ hlt) (Nat.le_of_succ_le hhi)] at hle
    exact .inl (by linarith)

/-- The quotient scaled by `2^s` into `[2^23, 2^24)`, rounded, and put with its exponent is nearer `num ÷ den` than any
other word. -/
theorem float32Units_significand_nearest {num den s E : Nat} (hsE : s + E = 149) (hlo : 2 ^ 23 * den ≤ num * 2 ^ s)
    (hhi : num * 2 ^ s < 2 ^ 24 * den) (htie : 2 * (num * 2 ^ s % den) ≠ den) {p : Nat}
    (hp : p ≠ E * 2 ^ 23 + roundEven (num * 2 ^ s) den) :
    |(float32Units (E * 2 ^ 23 + roundEven (num * 2 ^ s) den) : ℚ) / 2 ^ 149 - (num : ℚ) / den| <
      |(float32Units p : ℚ) / 2 ^ 149 - (num : ℚ) / den| := by
  have hden : 0 < den := Nat.pos_of_mul_pos_left (Nat.zero_lt_of_lt hhi)
  have hE : 0 < 2 ^ E := by positivity
  have hscale : 2 * (num * 2 ^ 149) = 2 * (num * 2 ^ s) * 2 ^ E := by rw [← hsE, pow_add]; ring
  obtain ⟨hmlo, hmhi⟩ := roundEven_mem_significands hlo hhi htie
  obtain ⟨hup, hlow⟩ := roundEven_bounds hden htie
  generalize roundEven (num * 2 ^ s) den = m at *
  generalize num * 2 ^ s = q at *
  have hunits := float32Units_significand E hmlo hmhi
  refine float32Units_nearest hden ?above (fun p hp => ?below) hp <;> rw [hscale, hunits]
  case above =>
    calc 2 * q * 2 ^ E < (2 * m + 1) * den * 2 ^ E := Nat.mul_lt_mul_of_pos_right hup hE
      _ = (m * 2 ^ E + (m + 1) * 2 ^ E) * den := by ring
      _ ≤ _ := Nat.mul_le_mul_right den (Nat.add_le_add_left (le_float32Units_significand_succ E hmlo hmhi) _)
  case below =>
    obtain hle | ⟨rfl, hlt⟩ := float32Units_lt_significand hmlo hmhi hp
    · have hgap := Nat.mul_le_mul_right den hle
      have hround := Nat.mul_lt_mul_of_pos_right hlow hE
      linarith
    · calc (float32Units p + 2 ^ 23 * 2 ^ E) * den < (2 ^ 23 * 2 ^ E + 2 ^ 23 * 2 ^ E) * den :=
          Nat.mul_lt_mul_of_pos_right (Nat.add_lt_add_right hlt _) hden
        _ = 2 * (2 ^ 23 * den) * 2 ^ E := by ring
        _ ≤ 2 * q * 2 ^ E := Nat.mul_le_mul_right _ (Nat.mul_le_mul_left 2 hlo)

/-! ### Quotients of accumulators (R115, R120) -/

section Accumulators

variable {acc den : Nat}

theorem divisor_bounds (hden : den ∈ [1, 10, 100]) : 1 ≤ den ∧ den ≤ 100 := by
  revert den
  decide

/-- The quotients are from 1/100 to 9999. -/
theorem floorLog2_accumulator (hpos : 0 < acc) (hacc : acc ≤ 9999) (hlo : 1 ≤ den) (hhi : den ≤ 100) :
    -7 ≤ floorLog2 acc den ∧ floorLog2 acc den < 14 := by
  have hacc1 : (1 : ℚ) ≤ acc := by exact_mod_cast hpos
  have hacc9999 : (acc : ℚ) ≤ 9999 := by exact_mod_cast hacc
  have hden1 : (1 : ℚ) ≤ den := by exact_mod_cast hlo
  have hden100 : (den : ℚ) ≤ 100 := by exact_mod_cast hhi
  have hden : (0 : ℚ) < den := by linarith
  have hquot : (0 : ℚ) < (acc : ℚ) / den := div_pos (by linarith) hden
  rw [floorLog2_eq_log hpos hlo, ← Int.zpow_le_iff_le_log one_lt_two hquot, ← Int.lt_zpow_iff_log_lt one_lt_two hquot,
    le_div_iff₀ hden, div_lt_iff₀ hden]
  constructor <;> norm_num <;> linarith

theorem scaled_mem_significands {s : Nat} (hacc : 0 < acc) (hden : 0 < den) (hs : floorLog2 acc den = 23 - (s : Int)) :
    2 ^ 23 * den ≤ acc * 2 ^ s ∧ acc * 2 ^ s < 2 ^ 24 * den := by
  have hden' : (0 : ℚ) < den := Nat.cast_pos.2 hden
  have hquot : (0 : ℚ) < (acc : ℚ) / den := div_pos (Nat.cast_pos.2 hacc) hden'
  rw [floorLog2_eq_log hacc hden] at hs
  have hlo : (2 : ℚ) ^ (23 - (s : Int)) ≤ acc / den := (Int.zpow_le_iff_le_log one_lt_two hquot).2 hs.ge
  have hhi : (acc : ℚ) / den < 2 ^ (24 - (s : Int)) := (Int.lt_zpow_iff_log_lt one_lt_two hquot).2 (by omega)
  rw [zpow_sub₀ two_ne_zero, div_le_div_iff₀ (by positivity) hden'] at hlo
  rw [zpow_sub₀ two_ne_zero, div_lt_div_iff₀ hden' (by positivity)] at hhi
  exact ⟨by exact_mod_cast hlo, by exact_mod_cast hhi⟩

/-- A tie needs an odd multiple of the divisor to be twice the scaled accumulator; that is a multiple of 8, and no
divisor has more than two factors 2. -/
theorem scaled_not_tie {s : Nat} (hs : 2 ≤ s) (hden : den ∈ [1, 10, 100]) : 2 * (acc * 2 ^ s % den) ≠ den := by
  obtain ⟨k, rfl⟩ := Nat.exists_eq_add_of_le hs
  rw [pow_add, mul_left_comm]
  simp only [List.mem_cons, List.not_mem_nil, or_false] at hden
  obtain rfl | rfl | rfl := hden <;> omega

/-- What `rne32` makes of a positive accumulator's quotient: exponent field and rounded significand. -/
theorem exists_rne32_toNat (hpos : 0 < acc) (hacc : acc ≤ 9999) (hden : den ∈ [1, 10, 100]) :
    ∃ s E : Nat, s + E = 149 ∧ E < 140 ∧ 2 ^ 23 * den ≤ acc * 2 ^ s ∧ acc * 2 ^ s < 2 ^ 24 * den ∧
      2 * (acc * 2 ^ s % den) ≠ den ∧ (rne32 acc den).toNat = E * 2 ^ 23 + roundEven (acc * 2 ^ s) den := by
  obtain ⟨hden1, hden100⟩ := divisor_bounds hden
  obtain ⟨hge, hlt⟩ := floorLog2_accumulator hpos hacc hden1 hden100
  obtain ⟨s, hs⟩ : ∃ s : Nat, floorLog2 acc den = 23 - (s : Int) := ⟨(23 - floorLog2 acc den).toNat, by omega⟩
  obtain ⟨hlo, hhi⟩ := scaled_mem_significands hpos hden1 hs
  have htie := scaled_not_tie (acc := acc) (s := s) (by omega) hden
  refine ⟨s, 149 - s, by omega, by omega, hlo, hhi, htie, ?_⟩
  have hm := (roundEven_mem_significands hlo hhi htie).2
  have hunit : max (floorLog2 acc den) (-126) - 23 = -(s : Int) := by omega
  have hfield : (-(s : Int) + 149).toNat = 149 - s := by omega
  simp only [rne32, if_neg (not_or.2 ⟨hpos.ne', Nat.ne_of_gt hden1⟩), hunit, hfield, neg_neg, Int.toNat_natCast,
    Int.toNat_neg_natCast, pow_zero, mul_one, BitVec.toNat_ofNat]
  omega

end Accumulators

@[simp] theorem rne32_zero (den : Nat) : rne32 0 den = 0#32 := if_pos (.inl rfl)

theorem rne32_lt_infinity {acc den : Nat} (hacc : acc ≤ 9999) (hden : den ∈ [1, 10, 100]) :
    (rne32 acc den).toNat < 0x7F800000 := by
  obtain rfl | hpos := acc.eq_zero_or_pos
  · simp
  · obtain ⟨s, E, -, hE, hlo, hhi, htie, hbits⟩ := exists_rne32_toNat hpos hacc hden
    have hm := (roundEven_mem_significands hlo hhi htie).2
    omega

/-- Settles O50: zero is its own word; elsewhere the significand is rounded away from ties. -/
theorem roundingGivesTheUniqueNearestFloat : Obligations.RoundingGivesTheUniqueNearestFloat := by
  intro acc den hacc hden
  refine ⟨rne32_lt_infinity hacc hden, fun w _ hne => ?_⟩
  have hbitsne : w.toNat ≠ (rne32 acc den).toNat := mt BitVec.eq_of_toNat_eq hne
  rw [binary32_eq_float32Units, binary32_eq_float32Units]
  obtain rfl | hpos := acc.eq_zero_or_pos
  · have hone : float32Units 0 < float32Units (0 + 1) := float32Units_strictMono Nat.zero_lt_one
    rw [rne32_zero, BitVec.toNat_zero] at hbitsne ⊢
    refine float32Units_nearest (divisor_bounds hden).1 ?_ (fun p hp => absurd hp p.not_lt_zero) hbitsne
    rw [Nat.zero_mul]
    exact Nat.mul_pos (by omega) (divisor_bounds hden).1
  · obtain ⟨s, E, hsE, -, hlo, hhi, htie, hbits⟩ := exists_rne32_toNat hpos hacc hden
    rw [hbits] at hbitsne ⊢
    exact float32Units_significand_nearest hsE hlo hhi htie hbitsne

end Sys2Proof.Machine

/-! ## The host requests' answers (R112 to R118, R127, R129) -/

namespace Sys2Proof.Machine

open Sys2Proof.Spec

/-! ### From the scan's result to the response (R112) -/

section Answered

variable {i : Instr} {k : RequestKind} {s : State}

theorem exec_request_found {slot : DigitSlots} (hk : requestKind i = some k) (h : extract s.core.buf = .found slot) :
    exec i s = .next (replied (foundResponse Config.tables slot k) s) := by
  rw [exec_request_eq_replied hk, request_found h]

theorem exec_request_notFound (hk : requestKind i = some k) (h : extract s.core.buf = .notFound) :
    exec i s = .next (replied (failResponse k) s) := by
  rw [exec_request_eq_replied hk, request_notFound h]

end Answered

/-- Settles O31, request by request. -/
theorem failedScanReturnsSentinels : Obligations.FailedScanReturnsSentinels :=
  fun _ h => ⟨exec_request_notFound (k := .voltage) rfl h, exec_request_notFound (k := .current) rfl h,
    exec_request_notFound (k := .power) rfl h, exec_request_notFound (k := .energy) rfl h,
    exec_request_notFound (k := .dump) rfl h⟩

/-- Settles O36, on both results of the scan. -/
theorem dumpReturnsTheExtractedBytes : Obligations.DumpReturnsTheExtractedBytes :=
  ⟨fun _ _ h => exec_request_found (k := .dump) rfl h, fun _ h => exec_request_notFound (k := .dump) rfl h⟩

/-! ### Voltage and current (R113, R114) -/

/-- The bytes of the four pinned entries, by digit (R68). -/
theorem config_vc_pinned : Config.tables.vc[0] = 0x05#8 ∧ Config.tables.vc[1] = 0x75#8 ∧ Config.tables.vc[2] = 0x53#8 ∧
    Config.tables.vc[3] = 0x17#8 := by
  obtain ⟨-, -, -, -, hpinned⟩ := hardwareTablesAreWellFormed
  exact hpinned

/-- Settles O32; the example's bytes are the pinned entries 1, 0, 2 and 3. -/
theorem getVoltageDecodesSlotsZeroToThree : Obligations.GetVoltageDecodesSlotsZeroToThree := by
  intro s slot h
  have hexec : exec .getv s = .next (replied (voltageResponse Config.tables slot) s) :=
    exec_request_found (k := .voltage) rfl h
  obtain ⟨d0, d1, d2, d3, h0, h1, h2, h3, hacc⟩ := exists_readsVC_accVC Config.tables slot 0
  refine ⟨⟨d0, d1, d2, d3, h0, h1, h2, h3, ?_⟩, ?_⟩
  · rw [hexec, voltageResponse, hacc]
    rfl
  · intro hb0 hb1 hb2 hb3
    obtain ⟨hzero, hone, htwo, hthree⟩ := config_vc_pinned
    have hacc : accVC Config.tables slot 0 = 1023 :=
      (decodingRecoversTableDigits _ slot 0 1 0 2 3 Config.tables_wellFormed).1 (hb0.trans hone.symm)
        (hb1.trans hzero.symm) (hb2.trans htwo.symm) (hb3.trans hthree.symm)
    have hvalue : rne32 1023 100 = 0x4123AE14#32 := by decide
    rw [hexec, voltageResponse, hacc, hvalue]
    rfl

/-- Settles O33; the example's bytes are the pinned entries 0, 1, 2 and 3. -/
theorem getCurrentDecodesSlotsFourToSeven : Obligations.GetCurrentDecodesSlotsFourToSeven := by
  intro s slot h
  have hexec : exec .geti s = .next (replied (currentResponse Config.tables slot) s) :=
    exec_request_found (k := .current) rfl h
  obtain ⟨d0, d1, d2, d3, h0, h1, h2, h3, hacc⟩ := exists_readsVC_accVC Config.tables slot 4
  refine ⟨⟨d0, d1, d2, d3, h0, h1, h2, h3, ?_⟩, ?_⟩
  · rw [hexec, currentResponse, hacc]
    rfl
  · intro hb4 hb5 hb6 hb7
    obtain ⟨hzero, hone, htwo, hthree⟩ := config_vc_pinned
    have hacc : accVC Config.tables slot 4 = 123 :=
      (decodingRecoversTableDigits _ slot 4 0 1 2 3 Config.tables_wellFormed).1 (hb4.trans hzero.symm)
        (hb5.trans hone.symm) (hb6.trans htwo.symm) (hb7.trans hthree.symm)
    have hvalue : rne32 123 100 = 0x3F9D70A4#32 := by decide
    rw [hexec, currentResponse, hacc, hvalue]
    rfl

/-! ### Power and energy (R116, R117) -/

/-- Settles O34, on both values of the DP flag. -/
theorem getPowerDecodesSlotsEightToEleven : Obligations.GetPowerDecodesSlotsEightToEleven := by
  intro s slot h
  have hexec : exec .getp s = .next (replied (powerResponse Config.tables slot) s) :=
    exec_request_found (k := .power) rfl h
  obtain ⟨d0, d1, d2, d3, h0, h1, h2, h3, hacc⟩ := exists_readsPE_accPE Config.tables slot 8
  refine ⟨d0, d1, d2, d3, h0, h1, h2, h3, fun hdp => ?_, fun hdp => ?_⟩
  · rw [hexec, powerResponse_of_dp hdp, hacc]
  · rw [hexec, powerResponse_of_not_dp hdp, hacc]

/-- Settles O35, on both values of the KILO flag. -/
theorem getEnergyDecodesSlotsTwelveToFifteen : Obligations.GetEnergyDecodesSlotsTwelveToFifteen := by
  intro s slot h
  have hexec : exec .gete s = .next (replied (energyResponse Config.tables slot) s) :=
    exec_request_found (k := .energy) rfl h
  obtain ⟨d0, d1, d2, d3, h0, h1, h2, h3, hacc⟩ := exists_readsPE_accPE Config.tables slot 12
  refine ⟨d0, d1, d2, d3, h0, h1, h2, h3, fun hkilo => ?_, fun hkilo => ?_⟩
  · rw [hexec, energyResponse_of_kilo hkilo, hacc]
  · rw [hexec, energyResponse_of_not_kilo hkilo, hacc]

/-! ### Values and sentinels (R129) -/

/-- What a value stays below that is neither negative nor, for a binary32 word, infinite or no number. -/
def valueBound (k : RequestKind) : Nat := if k = .energy then 2 ^ 31 else 0x7F800000

theorem foundResponse_status (t : SegTables) (slot : DigitSlots) (k : RequestKind) :
    (foundResponse t slot k).status = 0 := by
  cases k <;> rfl

theorem foundResponse_value_lt (t : SegTables) (slot : DigitSlots) (k : RequestKind) :
    (foundResponse t slot k).value.toNat < valueBound k := by
  cases k with
  | voltage => exact rne32_lt_infinity (accVC_le t slot 0) (by decide)
  | current => exact rne32_lt_infinity (accVC_le t slot 4) (by decide)
  | power =>
    cases hdp : slot[10].getLsbD 0 with
    | true =>
      rw [foundResponse, powerResponse_of_dp hdp]
      exact rne32_lt_infinity (accPE_le t slot 8) (by decide)
    | false =>
      rw [foundResponse, powerResponse_of_not_dp hdp]
      exact rne32_lt_infinity (accPE_le t slot 8) (by decide)
  | energy => exact (energyResponse_value_le t slot).trans_lt (by decide)
  | dump => exact Nat.zero_lt_succ _

theorem valueBound_le_sentinel {k : RequestKind} (hk : k ≠ .dump) : valueBound k ≤ (sentinel k).toNat := by
  cases k with
  | dump => exact absurd rfl hk
  | voltage | current | power | energy => decide

/-- Settles O51: every sentinel but DUMP's is at or above the bound that values stay below. -/
theorem sentinelsAreNeverResults : Obligations.SentinelsAreNeverResults := by
  intro s i k hi hk
  cases hx : extract s.core.buf with
  | found slot =>
    have hlt := foundResponse_value_lt Config.tables slot k
    have hne : (foundResponse Config.tables slot k).value ≠ sentinel k := fun he =>
      (hlt.trans_le (valueBound_le_sentinel hk)).ne (congrArg BitVec.toNat he)
    exact ⟨_, exec_request_found hi hx, .inl ⟨foundResponse_status .., hne, hlt⟩⟩
  | notFound => exact ⟨_, exec_request_notFound hi hx, .inr ⟨rfl, rfl⟩⟩

/-! ### Bits without effect (R127) -/

theorem readBits_of_le {n : Nat} (h : n ≤ 14) : readBits n = 0x77#8 := if_pos h

/-- Every bit is read of slots 10 and 15, whose bit 0 is a flag. -/
theorem and_readBits_of_flag (b : Byte) {n : Nat} (h : n = 20 ∨ 30 ≤ n) : b &&& readBits n = b := by
  rw [readBits, if_neg (by omega), if_pos h]
  exact BitVec.and_allOnes

/-- The code of a power or energy byte is among the bits read. -/
theorem peCode_and_readBits (b : Byte) {n : Nat} (h : 14 < n) : peCode (b &&& readBits n) = peCode b := by
  by_cases hflag : n = 20 ∨ 30 ≤ n
  · rw [and_readBits_of_flag b hflag]
  · rw [readBits, if_neg h.not_ge, if_neg hflag, peCode_and_0xFE]

/-- The digit slots differ at most in bit 0 of slots 8, 9, 11, 12, 13 and 14. -/
structure SlotsAgree (a b : DigitSlots) : Prop where
  low : ∀ k : Fin 16, k.val < 8 → a[k.val] = b[k.val]
  read : ∀ k : Fin 16, a[k.val] &&& readBits (2 * k.val) = b[k.val] &&& readBits (2 * k.val)

section Agreeing

variable {a b : DigitSlots}

theorem SlotsAgree.accVC_eq (h : SlotsAgree a b) (t : SegTables) {base : Fin 13} (hbase : base.val + 4 ≤ 8) :
    accVC t a base = accVC t b base :=
  accVC_congr t base fun k hk => h.low ⟨base.val + k, by omega⟩ (by simp only; omega)

theorem SlotsAgree.accPE_eq (h : SlotsAgree a b) (t : SegTables) {base : Fin 13} (hbase : 8 ≤ base.val) :
    accPE t a base = accPE t b base := by
  refine accPE_congr t base fun k hk => ?_
  have hread := congrArg peCode (h.read ⟨base.val + k, by omega⟩)
  rwa [peCode_and_readBits _ (by simp only; omega), peCode_and_readBits _ (by simp only; omega)] at hread

theorem SlotsAgree.flagSlot_eq (h : SlotsAgree a b) {k : Fin 16} (hk : k = 10 ∨ k = 15) : a[k.val] = b[k.val] := by
  have hread := h.read k
  have hflag : 2 * k.val = 20 ∨ 30 ≤ 2 * k.val := by omega
  rwa [and_readBits_of_flag _ hflag, and_readBits_of_flag _ hflag] at hread

/-- The accessors answer the same. -/
theorem SlotsAgree.foundResponse_eq (h : SlotsAgree a b) (t : SegTables) {k : RequestKind} (hk : k ≠ .dump) :
    foundResponse t a k = foundResponse t b k := by
  cases k with
  | voltage => simp only [foundResponse, voltageResponse, h.accVC_eq t (base := 0) (by decide)]
  | current => simp only [foundResponse, currentResponse, h.accVC_eq t (base := 4) (by decide)]
  | power =>
    have hflag : dpFlag a = dpFlag b := congrArg lowBit (h.flagSlot_eq (.inl rfl))
    simp only [foundResponse, powerResponse, hflag, h.accPE_eq t (base := 8) (by decide)]
  | energy =>
    have hflag : kiloFlag a = kiloFlag b := congrArg lowBit (h.flagSlot_eq (.inr rfl))
    simp only [foundResponse, energyResponse, hflag, h.accPE_eq t (base := 12) (by decide)]
  | dump => exact absurd rfl hk

end Agreeing

/-- The digit slots that the packets at the given indices carry (R99, R100). -/
def slotsAt (snap : FrameBuffer) (idx : Fin 16 → Fin 32) : DigitSlots :=
  Vector.ofFn fun k => dataOf (memRead snap (idx k)) &&& (if k.val < 8 then 0x77#8 else 0xFF#8)

@[simp] theorem getElem_slotsAt (snap : FrameBuffer) (idx : Fin 16 → Fin 32) (k : Fin 16) :
    (slotsAt snap idx)[k.val] = dataOf (memRead snap (idx k)) &&& (if k.val < 8 then 0x77#8 else 0xFF#8) := by
  simp [slotsAt]

section SameRead

variable {x y : FrameBuffer} {a : DigitSlots} {idx : Fin 16 → Fin 32}

theorem sameReadBits_symm (h : SameReadBits x y) : SameReadBits y x := by
  intro j
  obtain ⟨hcmd, haddr, hdata⟩ := h j
  exact ⟨hcmd.symm, haddr.symm, haddr ▸ hdata.symm⟩

/-- The packets stand at the same indices. -/
theorem completeRun_slotsAt (h : SameReadBits x y) (hrun : CompleteRun x a idx) :
    CompleteRun y (slotsAt y idx) idx := by
  obtain ⟨hmono, hpacket, hfirst, hbetween, -⟩ := hrun
  have hcmd : ∀ j, cmdOf (memRead y j) = cmdOf (memRead x j) := fun j => (h j).1.symm
  have haddr : ∀ j, addrOf (memRead y j) = addrOf (memRead x j) := fun j => (h j).2.1.symm
  refine ⟨hmono, fun k => ?_, fun j hj => ?_, fun j h0 h15 hw => hbetween j h0 h15 (hcmd j ▸ hw), getElem_slotsAt y idx⟩
  · rw [IsPacket, hcmd, haddr]
    exact hpacket k
  · rw [IsPacket, hcmd, haddr]
    exact hfirst j hj

/-- Their data differ in ignored bits only, and the mask clears those of slots 0 to 7 (R99). -/
theorem slotsAgree_slotsAt (h : SameReadBits x y) (hrun : CompleteRun x a idx) : SlotsAgree a (slotsAt y idx) := by
  obtain ⟨-, hpacket, -, -, hslot⟩ := hrun
  have hdata : ∀ k : Fin 16, dataOf (memRead x (idx k)) &&& readBits (2 * k.val) =
      dataOf (memRead y (idx k)) &&& readBits (2 * k.val) := by
    intro k
    obtain ⟨-, -, hd⟩ := h (idx k)
    rwa [show (addrOf x[(idx k).val]).toNat = 2 * k.val from (hpacket k).2] at hd
  constructor
  · intro k hk
    have hd := hdata k
    rw [readBits_of_le (by omega)] at hd
    rw [hslot, getElem_slotsAt, if_pos hk, hd]
  · intro k
    rw [hslot, getElem_slotsAt, BitVec.and_comm (dataOf _), BitVec.and_assoc, hdata, ← BitVec.and_assoc,
      BitVec.and_comm (dataOf _)]

theorem extract_found_of_sameReadBits (h : SameReadBits x y) (hx : extract x = .found a) :
    ∃ b, extract y = .found b ∧ SlotsAgree a b := by
  obtain ⟨idx, hrun⟩ := (extract_eq_found_iff x a).1 hx
  exact ⟨_, (extract_eq_found_iff y _).2 ⟨idx, completeRun_slotsAt h hrun⟩, slotsAgree_slotsAt h hrun⟩

theorem extract_notFound_of_sameReadBits (h : SameReadBits x y) (hx : extract x = .notFound) :
    extract y = .notFound := by
  cases hy : extract y with
  | notFound => rfl
  | found b =>
    obtain ⟨c, hc, -⟩ := extract_found_of_sameReadBits (sameReadBits_symm h) hy
    rw [hx] at hc
    cases hc

end SameRead

/-- Each accessor's instruction has a request kind that is not DUMP's. -/
theorem requestKind_of_accessor {i : Instr} (h : i ∈ [Instr.getv, .geti, .getp, .gete]) :
    ∃ k, requestKind i = some k ∧ k ≠ .dump := by
  simp only [List.mem_cons, List.not_mem_nil, or_false] at h
  obtain rfl | rfl | rfl | rfl := h
  · exact ⟨.voltage, rfl, by decide⟩
  · exact ⟨.current, rfl, by decide⟩
  · exact ⟨.power, rfl, by decide⟩
  · exact ⟨.energy, rfl, by decide⟩

/-- Settles O49, on both results of the scan. -/
theorem ignoredBitsHaveNoEffect : Obligations.IgnoredBitsHaveNoEffect := by
  intro s t h
  cases hs : extract s.core.buf with
  | found a =>
    obtain ⟨b, ht, hagree⟩ := extract_found_of_sameReadBits h hs
    refine ⟨fun i hi => ?_, _, _, exec_request_found (k := .dump) rfl hs, exec_request_found (k := .dump) rfl ht, rfl,
      rfl, rfl, rfl, hagree.read, hagree.low⟩
    obtain ⟨k, hk, hne⟩ := requestKind_of_accessor hi
    have hexec := exec_request_found hk ht
    rw [← hagree.foundResponse_eq Config.tables hne] at hexec
    exact ⟨_, exec_request_found hk hs, hexec⟩
  | notFound =>
    have ht := extract_notFound_of_sameReadBits h hs
    refine ⟨fun i hi => ?_, _, _, exec_request_notFound (k := .dump) rfl hs, exec_request_notFound (k := .dump) rfl ht,
      rfl, rfl, rfl, rfl, fun _ => rfl, fun _ _ => rfl⟩
    obtain ⟨k, hk, -⟩ := requestKind_of_accessor hi
    exact ⟨_, exec_request_notFound hk hs, exec_request_notFound hk ht⟩

end Sys2Proof.Machine

/-! ## Exceptions and agents: stops, idling and the chip-select line (R71, R131 to R144, R156, R161) -/

namespace Sys2Proof.Machine

open Sys2Proof.Laws Sys2Proof.Spec

/-! ### Steps that stop, and steps without an operation (R71, R72, R131, R141) -/

/-- The counterpart of `step_of_stimulus_cons` when no operation is given. -/
theorem step_of_stimulus_nil {s : State} (h : s.stimulus = []) : step s = .next s := by
  have hfetch : fetch s = none := fetch_none.2 h
  simp only [step, hfetch]

/-- Settles O7, by the equation of `step` for an empty stimulus. -/
theorem stepWithoutOperationKeepsTheState : Obligations.StepWithoutOperationKeepsTheState := by
  intro s h
  exact step_of_stimulus_nil h

theorem wellFormed_of_carriedWord {i : Instr} {w : Word} (h : carriedWord i = some w) : i.wellFormed = true := by
  cases i with
  | writeMemory | ignoredCmd0 | ignoredCmd1 | ignoredCmd2 | ignoredCmd3 | ignoredCmd4 | ignoredCmd6 | ignoredCmd7 =>
    rfl
  | _ => cases h

theorem decodeOp4_wellFormed : ∀ code ∉ reservedCodes, (decodeOp4 code).wellFormed = true := by decide

/-- Only a reserved code decodes to an ill-formed instruction: no bus word is illegal (R71, R72). -/
theorem decode_wellFormed_or_reserved (w : StimulusWord) :
    (decode w).wellFormed = true ∨ ∃ code ∈ reservedCodes, w = .op4 code := by
  cases w with
  | op4 code =>
    by_cases hcode : code ∈ reservedCodes
    · exact .inr ⟨code, hcode, rfl⟩
    · exact .inl (decodeOp4_wellFormed code hcode)
  | busWord w => exact .inl (wellFormed_of_carriedWord (carriedWord_decodeBusWord w))

/-- Settles O9: with an operation given, its row is well formed and answers, or its code is reserved and refused. -/
theorem onlyReservedCodesStopTheMachine : Obligations.OnlyReservedCodesStopTheMachine := by
  intro s
  cases hs : s.stimulus with
  | nil => exact .inl ⟨s, step_of_stimulus_nil hs⟩
  | cons w rest =>
    rw [step_of_stimulus_cons hs]
    obtain hwf | ⟨code, hcode, rfl⟩ := decode_wellFormed_or_reserved w
    · exact .inl (exec_next_of_wellFormed hwf _)
    · exact .inr ⟨code, rest, rfl, hcode, reservedCodesAreRefused code hcode _⟩

/-! ### The chip-select line (R137, R142) -/

@[simp] theorem permitted_csf (s : State) : permitted .csf s = decide (s.csLevel = .high) := rfl

@[simp] theorem permitted_csr (s : State) : permitted .csr s = decide (s.csLevel = .low) := rfl

/-- Requests are possible in every state (R142). -/
theorem permitted_request {i : Instr} {k : RequestKind} (h : requestKind i = some k) (s : State) :
    permitted i s = true := by
  cases i with
  | getv | geti | getp | gete | dump => rfl
  | _ => cases h

/-- Settles O28: a falling edge is permitted by a high line and leaves it low, a rising edge the other way round; the
other operations keep the line. -/
theorem chipSelectEventsAlternate : Obligations.ChipSelectEventsAlternate := by
  refine ⟨fun s hs => ?_, fun s hs => ?_, ?_⟩
  · have hhigh : s.csLevel = .high := by simpa using hs
    exact ⟨by simp [hhigh], csFall s, exec_csf s, by simp, by simp⟩
  · have hlow : s.csLevel = .low := by simpa using hs
    exact ⟨by simp [hlow], csRise s, exec_csr s, by simp, by simp⟩
  · rintro i s (⟨d, rfl⟩ | rfl | hrequest)
    · exact ⟨rfl, sclkRise d s, exec_clk d s, sclkRise_csLevel d s⟩
    · exact ⟨rfl, resetCore s, exec_rst s, resetCore_csLevel s⟩
    · obtain ⟨k, hk⟩ := Option.isSome_iff_exists.1 hrequest
      exact ⟨permitted_request hk s, answer k s, exec_request hk s, answer_csLevel k s⟩

/-! ### Chip-select held (R144, R161) -/

@[simp] theorem sampleBits_core_csActive (bits : List Bit) (s : State) :
    (sampleBits bits s).core.csActive = s.core.csActive := by
  induction bits generalizing s with
  | nil => rfl
  | cons d ds ih => exact (ih (sclkRise d s)).trans (coreSclkRise_csActive d s.core)

/-- What edges make of the hardware's state depends on nothing else (R20, R82). -/
theorem sampleBits_core_congr (bits : List Bit) {s t : State} (h : t.core = s.core) :
    (sampleBits bits t).core = (sampleBits bits s).core := by
  rw [sampleBits_eq, sampleBits_eq, h]

/-- Of clock edges and requests, the hardware sees the clock edges alone (R28, R161). -/
theorem runOps_of_keepsChipSelect {ops : List Instr} (h : ∀ i ∈ ops, keepsChipSelect i) (s : State) :
    ∃ t bits, runOps ops s = .next t ∧ t.core = (sampleBits bits s).core ∧ t.csLevel = s.csLevel := by
  induction ops generalizing s with
  | nil => exact ⟨s, [], rfl, rfl, rfl⟩
  | cons i ops ih =>
    obtain ⟨hi, hops⟩ := List.forall_mem_cons.1 h
    obtain ⟨d, rfl⟩ | hrequest := hi
    · obtain ⟨t, bits, hrun, hcore, hlevel⟩ := ih hops (sclkRise d s)
      exact ⟨t, d :: bits, (runOps_cons (exec_clk d s) ops).trans hrun, hcore, hlevel⟩
    · obtain ⟨k, hk⟩ := Option.isSome_iff_exists.1 hrequest
      obtain ⟨t, bits, hrun, hcore, hlevel⟩ := ih hops (answer k s)
      exact ⟨t, bits, (runOps_cons (exec_request hk s) ops).trans hrun,
        hcore.trans (sampleBits_core_congr bits (answer_core k s)), hlevel⟩

/-- Settles O56: the hardware sees a run of clock edges, which a full word ignores. -/
theorem heldChipSelectFreezesTheRing : Obligations.HeldChipSelectFreezesTheRing := by
  intro ops s h
  obtain ⟨t, bits, hrun, hcore, hlevel⟩ := runOps_of_keepsChipSelect h s
  refine ⟨t, hrun, ?_⟩
  rw [hcore]
  refine ⟨sampleBits_core_cursor bits s, sampleBits_core_csActive bits s, hlevel,
    fun j hj => memRead_sampleBits_other bits s hj, fun hfull => ?_⟩
  rw [sampleBits_ignored bits (.inr hfull)]

/-! ### A clock edge together with a chip-select edge (R138, R156) -/

theorem sclkRise_ignored (d : Bit) {s : State} (h : s.core.csActive = false ∨ s.core.pos = 17) : sclkRise d s = s :=
  sampleBits_ignored [d] h

/-- An edge right after CS_FALL is the word's first bit (R82, R156). -/
theorem sclkRise_csFall (d : Bit) (s : State) : sclkRise d (csFall s) = inProgress (d.setWidth 17 <<< 16) 1 s := by
  have hfirst := sampleBits_csFall [d] s (by simp)
  simpa [sampledFrom] using hfirst

/-- Settles O55: the edge before CS_FALL or after CS_RISE is ignored, the one after CS_FALL or before CS_RISE is
sampled. -/
theorem simultaneousEdgesBothOrders : Obligations.SimultaneousEdgesBothOrders := by
  intro d s
  refine ⟨fun hinactive => ⟨csFall s, sclkRise d (csFall s), ?_, rfl, memRead_memWrite_same _ _ _, rfl, ?_⟩,
    fun hactive hroom => ⟨csRise s, csRise (sclkRise d s), ?_, rfl, rfl, rfl, ?_⟩⟩
  · rw [runOps_cons (exec_clk d s), sclkRise_ignored d (.inl hinactive)]
    rfl
  · rw [sclkRise_csFall]
    exact ⟨rfl, memRead_memWrite_same _ _ _⟩
  · rw [runOps_cons (exec_csr s), runOps_cons (exec_clk d _), sclkRise_ignored d (.inl rfl), runOps_nil]
  · rw [csRise_core, coreCsRise_buf, coreCsRise_pos, sclkRise_core, coreSclkRise_sampled d s.core hactive hroom]
    exact ⟨rfl, memRead_memWrite_same _ _ _⟩

end Sys2Proof.Machine

/-! ## Reset and hazards: the transaction budget, RESET and a ring full of sequences (R35, R151, R154, R162) -/

namespace Sys2Proof.Machine

open Sys2Proof.Spec

/-! ### Ring slots in use, and what an operation adds to them (R37, R41, R154) -/

theorem slotsInUse_eq_card (c : CoreState) :
    c.slotsInUse = (Finset.univ.filter fun j => c.slotInUse j = true).card := by
  rw [← List.toFinset_finRange, (List.nodup_finRange 32).card_eq_countP]
  simp [CoreState.slotsInUse]

/-- Slots in use that were not before are one more at most, if they are all the same slot. -/
theorem slotsInUse_le_succ {c d : CoreState} {i : Fin 32}
    (h : ∀ j, c.slotInUse j = true → d.slotInUse j = true ∨ j = i) : c.slotsInUse ≤ d.slotsInUse + 1 := by
  rw [slotsInUse_eq_card, slotsInUse_eq_card]
  refine (Finset.card_le_card fun j hj => ?_).trans (Finset.card_insert_le i _)
  have hj := h j (Finset.mem_filter_univ j |>.1 hj)
  simpa [or_comm] using hj

/-- A slot that an operation leaves in use was in use before, or the operation begins its transaction there. -/
theorem exec_slotInUse {i : Instr} {s t : State} (h : exec i s = .next t) {j : Fin 32}
    (hj : t.core.slotInUse j = true) :
    s.core.slotInUse j = true ∨ (startsTransaction i = true ∧ j = s.core.cursor) := by
  rw [slotInUse_iff] at hj ⊢
  obtain ⟨rfl, rfl⟩ | ⟨-, rfl⟩ | ⟨d, -, rfl⟩ | ⟨-, rfl⟩ | ⟨k, -, rfl⟩ | ⟨w, hw, rfl⟩ := exec_cases h
  · by_cases hcursor : j = s.core.cursor
    · exact .inr ⟨rfl, hcursor⟩
    · simpa [memRead_memWrite_other _ _ hcursor, hcursor] using hj
  · exact .inl (.inl (hj.resolve_right (by simp)))
  · left
    rcases Bool.eq_false_or_eq_true s.core.csActive with hactive | hinactive
    · by_cases hcursor : j = s.core.cursor
      · exact .inr ⟨hactive, hcursor⟩
      · simpa [memRead_coreSclkRise_other d s.core hcursor] using hj
    · rwa [sclkRise_core, coreSclkRise_ignored d s.core (.inl hinactive)] at hj
  · simp [memRead] at hj
  · exact .inl hj
  · by_cases hcursor : j = s.core.cursor
    · exact .inr ⟨by simp [startsTransaction, hw], hcursor⟩
    · have hword := hj.resolve_right (by simp)
      rw [transactWord, memRead_transact_other _ _ hcursor] at hword
      exact .inl (.inl hword)

/-- An operation brings at most one more slot into use, and none unless it begins a transaction (R154). -/
theorem exec_slotsInUse_le {i : Instr} {s t : State} (h : exec i s = .next t) :
    t.core.slotsInUse ≤ s.core.slotsInUse + if startsTransaction i then 1 else 0 := by
  by_cases hstart : startsTransaction i = true
  · rw [if_pos hstart]
    exact slotsInUse_le_succ fun j hj => (exec_slotInUse h hj).imp_right And.right
  · rw [if_neg hstart]
    exact slotsInUse_le fun j hj => (exec_slotInUse h hj).resolve_right fun hnew => hstart hnew.1

@[simp] theorem transactWord_stimulus (w : Word) (s : State) : (transactWord w s).stimulus = s.stimulus := by
  rw [transactWord_eq_captured]
  rfl

/-- No operation writes the stimulus. -/
theorem exec_stimulus {i : Instr} {s t : State} (h : exec i s = .next t) : t.stimulus = s.stimulus := by
  obtain ⟨-, rfl⟩ | ⟨-, rfl⟩ | ⟨d, -, rfl⟩ | ⟨-, rfl⟩ | ⟨k, -, rfl⟩ | ⟨w, -, rfl⟩ := exec_cases h
  · rfl
  · rfl
  · rfl
  · rfl
  · rfl
  · exact transactWord_stimulus w s

/-- A step spends from the stimulus the transaction that it brings into the ring. -/
theorem step_withinBudget {n : Nat} {s t : State} (h : step s = .next t) (hs : s.withinBudget n) :
    t.withinBudget n := by
  obtain ⟨-, rfl⟩ | ⟨w, rest, hstimulus, hrun⟩ := step_cases h
  · exact hs
  · have huse : t.core.slotsInUse ≤ s.core.slotsInUse + if startsTransaction (decode w) then 1 else 0 :=
      (exec_slotsInUse_le hrun :)
    have hrest : t.stimulus = rest := exec_stimulus hrun
    rw [State.withinBudget, hstimulus, transactionsIn_cons] at hs
    rw [State.withinBudget, hrest]
    omega

/-- A run brings no more slots into use than it begins transactions (R154). -/
theorem runOps_slotsInUse_le {ops : List Instr} {s t : State} (h : runOps ops s = .next t) :
    t.core.slotsInUse ≤ s.core.slotsInUse + ops.countP startsTransaction := by
  induction ops generalizing s with
  | nil =>
    cases h
    exact Nat.le_add_right _ _
  | cons i ops ih =>
    cases hi : exec i s with
    | next u =>
      rw [runOps_cons hi] at h
      have hfirst := exec_slotsInUse_le hi
      have hrest := ih h
      rw [List.countP_cons]
      omega
    | fault r => cases r
    | refused r => simp [runOps, hi] at h

/-! ### A sequence needs 16 slots (R103, R154) -/

/-- The packets of a complete run stand in 16 slots, and none of them is the word 0. -/
theorem CompleteRun.sixteen_le_slotsInUse {c : CoreState} {slot : DigitSlots} {idx : Fin 16 → Fin 32}
    (h : CompleteRun c.buf slot idx) : 16 ≤ c.slotsInUse := by
  obtain ⟨hmono, hpacket, -⟩ := h
  have huse : ∀ k, c.slotInUse (idx k) = true := by
    intro k
    refine (slotInUse_iff c (idx k)).2 (.inl fun hzero => ?_)
    have hcmd := (hpacket k).1
    rw [hzero] at hcmd
    exact absurd hcmd (by decide)
  have hcard : Fintype.card (Fin 16) ≤ (Finset.univ.filter fun j => c.slotInUse j = true).card :=
    Finset.card_le_card_of_injOn idx (fun k _ => by simpa using huse k) hmono.injective.injOn
  rwa [Fintype.card_fin, ← slotsInUse_eq_card] at hcard

theorem extract_eq_notFound_of_slotsInUse_le {c : CoreState} (h : c.slotsInUse ≤ 15) : extract c.buf = .notFound :=
  extract_eq_notFound fun _ _ hrun => absurd hrun.sixteen_le_slotsInUse (by omega)

/-- Settles O59: an operation brings into use at most the slot whose transaction it begins, and a sequence needs 16. -/
theorem everyStepKeepsTheTransactionBudget : Obligations.EveryStepKeepsTheTransactionBudget :=
  ⟨fun _ _ _ hs h => step_withinBudget h hs,
    fun _ hs => extract_eq_notFound_of_slotsInUse_le (Nat.le_of_add_right_le hs)⟩

/-! ### After RESET (R35, R151, R154) -/

@[simp] theorem slotsInUse_reset : CoreState.reset.slotsInUse = 0 :=
  List.countP_eq_zero.2 fun j _ => by simp [slotInUse_iff, CoreState.reset, memRead]

/-- RESET leaves the reset values of the hardware's state (R35, R151). -/
theorem coreReset_eq_reset (c : CoreState) : coreReset c = CoreState.reset := rfl

/-- Settles O53: from no slot in use, at most 15 transactions bring at most 15 into use. -/
theorem noSequenceBeforeSixteenTransactions : Obligations.NoSequenceBeforeSixteenTransactions := by
  intro ops s t hreset hops hrun
  have huse := runOps_slotsInUse_le hrun
  rw [hreset, slotsInUse_reset] at huse
  exact extract_eq_notFound_of_slotsInUse_le (by omega)

/-- Settles O13, by the fields of `resetCore`. -/
theorem resetClearsTheHardwareState : Obligations.ResetClearsTheHardwareState := by
  intro s
  have hbuf : ∀ j : Fin 32, (resetCore s).core.buf[j.val] = 0#17 := fun j => Vector.getElem_replicate j.isLt
  exact ⟨resetCore s, exec_rst s, hbuf, rfl, rfl, rfl, rfl, rfl, rfl⟩

/-- Settles O52: RESET leaves no slot in use, so the scan fails. -/
theorem requestsRightAfterResetFail : Obligations.RequestsRightAfterResetFail := by
  intro s i k hk
  have hscan : extract (resetCore s).core.buf = .notFound :=
    extract_eq_notFound_of_slotsInUse_le (by simp [coreReset_eq_reset])
  exact ⟨resetCore s, exec_rst s, exec_request_notFound hk hscan⟩

/-- Settles O60: RESET leaves no slot in use and no operation to come, so the program's are all there is. -/
theorem resetBudgetIsTheProgramsTransactions : Obligations.ResetBudgetIsTheProgramsTransactions := by
  intro program
  have huse : (load program State.reset).core.slotsInUse = 0 := slotsInUse_reset
  have hstimulus : (load program State.reset).stimulus = program := rfl
  rw [State.withinBudget, huse, hstimulus, Nat.zero_add]

/-! ### A ring full of sequences (R162) -/

/-- The indices of the 16 packets from the first address-0 packet on, in a ring of phase `c` (R162). -/
def phaseRun (c : Nat) (k : Fin 16) : Fin 32 := ⟨(16 - c % 16) % 16 + k.val, by omega⟩

@[simp] theorem phaseRun_val (c : Nat) (k : Fin 16) : (phaseRun c k).val = (16 - c % 16) % 16 + k.val := rfl

theorem phaseRun_strictMono (c : Nat) : StrictMono (phaseRun c) := fun _ _ hlt => Nat.add_lt_add_left hlt _

/-- The run that begins at the ring's first address-0 packet is complete (R103, R162). -/
theorem completeRun_phaseRun {data : Fin 32 → Byte} {c : Nat} {snap : FrameBuffer}
    (h : ∀ j : Fin 32, memRead snap j = packWord 5 (BitVec.ofNat 6 (2 * ((j.val + c) % 16))) (data j)) :
    CompleteRun snap (slotsAt snap (phaseRun c)) (phaseRun c) := by
  have hcmd : ∀ j, cmdOf (memRead snap j) = 5#3 := fun j => by rw [h, cmdOf_packWord]; rfl
  have haddr : ∀ j : Fin 32, (addrOf (memRead snap j)).toNat = 2 * ((j.val + c) % 16) := by
    intro j
    rw [h, addrOf_packWord, BitVec.toNat_ofNat]
    omega
  refine ⟨phaseRun_strictMono c, fun k => ⟨hcmd _, ?_⟩, ?_, ?_, getElem_slotsAt snap (phaseRun c)⟩
  · rw [haddr]
    simp only [phaseRun_val]
    omega
  · rintro j hj ⟨-, hzero⟩
    rw [haddr] at hzero
    simp only [Fin.lt_def, phaseRun_val, Fin.val_zero] at hj
    omega
  · intro j h0 h15 _
    simp only [Fin.lt_def, phaseRun_val, Fin.val_zero] at h0 h15
    exact ⟨⟨j.val - (16 - c % 16) % 16, by omega⟩, Fin.ext (Nat.add_sub_of_le (by omega))⟩

/-- Settles O54: the run at the ring's phase is complete, and it carries the data of its indices. -/
theorem ringOfCompleteSequencesIsAlwaysFound : Obligations.RingOfCompleteSequencesIsAlwaysFound := by
  intro data c snap h
  refine ⟨_, (extract_eq_found_iff snap _).2 ⟨_, completeRun_phaseRun h⟩, fun k => ?_⟩
  have hword : memRead snap (phaseRun c k) = packWord 5 _ _ := h (phaseRun c k)
  rw [getElem_slotsAt, hword, dataOf_packWord]
  rfl

end Sys2Proof.Machine
